-- ==== Sys2Proof/Word.lean ====
section
/-! DEFINITION. The word types of the Base85 group codec block (spec/00_scope.md R9, R13): bytes, the 32-bit group value,
the 48-bit command word, base-85 digits, and the four bytes of a decoded group. -/

namespace Sys2Proof

/-- "A byte is 8 bits" (R9). A character is the byte of its code (R12). -/
abbrev Byte := BitVec 8

/-- The group value: a 32-bit unsigned number (R7, R13). -/
abbrev GroupValue := BitVec 32

/-- One command: a single 48-bit word (R70, R82). -/
abbrev CommandWord := BitVec 48

/-- "The value 0..84 of a symbol" (R13). Digits never take part in wrapping arithmetic, so the bound is in the type. -/
abbrev Digit := Fin 85

/-- The hold buffer: five slots of one byte (R7 HOLD_SLOTS, R27). -/
abbrev Hold := Vector Byte 5

/-- The four bytes GroupDecode returns, `b0` the most significant (R54(c), R141). -/
structure GroupBytes where
  b0 : Byte
  b1 : Byte
  b2 : Byte
  b3 : Byte
  deriving DecidableEq, Repr

end Sys2Proof
end

