-- ==== Sys2Proof/Syntax.lean ====
section
/-! DEFINITION. The commands of the block as syntax: one constructor per row of spec/opcode_table.json
(spec/30_encoding.md R71, operands R74 to R79). -/

namespace Sys2Proof

/-- The seven commands. Operands are the fields of the command word, read as they stand (R80). -/
inductive Instr where
  /-- ALPHA_ENC v: forward lookup of the digit v = DATA[6:0] (R76, R101). -/
  | alphaEnc (v : BitVec 7)
  /-- ALPHA_DEC c: inverse lookup of the byte c = DATA[7:0] (R77, R103). -/
  | alphaDec (c : Byte)
  /-- ENC_GROUP n, V: encode a group of n = ARG real bytes whose zero-padded big-endian value is V = DATA[31:0] (R74, R122). -/
  | encGroup (n : BitVec 4) (value : GroupValue)
  /-- DEC_GROUP s0 .. s4: decode five symbols, s0 = DATA[39:32] first (R75, R142). -/
  | decGroup (s0 s1 s2 s3 s4 : Byte)
  /-- SM_INIT (R78, R161). -/
  | smInit
  /-- SM_FEED c: feed the input character c = DATA[7:0] (R79, R166). -/
  | smFeed (c : Byte)
  /-- SM_FINALIZE (R78, R176). -/
  | smFinalize
  deriving DecidableEq, Repr

end Sys2Proof
end

