-- ==== Sys2Proof/WellFormed.lean ====
section
/-! DEFINITION. Which instruction terms are commands: the operand ranges of spec/30_encoding.md R73, R74, R76. -/

namespace Sys2Proof

/-- R73, R74: n is 1..4, and the bytes at an index ≥ n, which are the low 8·(4 − n) bits of the group value, are 0. -/
def Instr.groupOperandLegal (n : BitVec 4) (value : GroupValue) : Bool :=
  decide (1 ≤ n.toNat ∧ n.toNat ≤ 4 ∧ value.toNat % 2 ^ (8 * (4 - n.toNat)) = 0)

/-- Every operand is inside its legal range (R73); only ALPHA_ENC and ENC_GROUP have operands with illegal values. -/
def Instr.wellFormed : Instr → Bool
  | .alphaEnc v => decide (v.toNat ≤ 84)
  | .alphaDec _ => true
  | .encGroup n value => Instr.groupOperandLegal n value
  | .decGroup _ _ _ _ _ => true
  | .smInit => true
  | .smFeed _ => true
  | .smFinalize => true

end Sys2Proof
end

