-- ==== Sys2Proof/Decode.lean ====
section
/-! DEFINITION. The command decoder of spec/30_encoding.md R81, total on every 48-bit word and naming why a word is refused, and
the encoder from R70 and R74 to R79. -/

namespace Sys2Proof

/-- Why a command word is refused. The block reports all of them alike, as IllegalCommand (R206); the names are the model's. -/
inductive IllegalReason where
  /-- OP is 0x0 or 0x8..0xF (R72). -/
  | reservedOpcode
  /-- A bit that R74 to R79 assign to no operand is set (R73). -/
  | reservedBits
  /-- ALPHA_ENC v > 84, ENC_GROUP n outside 1..4, or a nonzero ENC_GROUP byte at an index ≥ n (R73). -/
  | operandOutOfRange
  deriving DecidableEq, Repr

/-- What the decoder answers. -/
inductive Decoded where
  | command (i : Instr)
  | illegal (r : IllegalReason)
  deriving DecidableEq, Repr

/-- OP = w[47:44] (R70). -/
def opField (w : CommandWord) : BitVec 4 := w.extractLsb' 44 4

/-- ARG = w[43:40] (R70). -/
def argField (w : CommandWord) : BitVec 4 := w.extractLsb' 40 4

/-- DATA = w[39:0] (R70). -/
def dataField (w : CommandWord) : BitVec 40 := w.extractLsb' 0 40

/-- OP = 0x1: ARG = 0, DATA[39:7] = 0, DATA[6:0] ≤ 84 (R76, R81). -/
def decodeAlphaEnc (arg : BitVec 4) (d : BitVec 40) : Decoded :=
  if arg = 0 ∧ d.extractLsb' 7 33 = 0 then
    if (d.extractLsb' 0 7).toNat ≤ 84 then .command (.alphaEnc (d.extractLsb' 0 7)) else .illegal .operandOutOfRange
  else .illegal .reservedBits

/-- OP = 0x2: ARG = 0, DATA[39:8] = 0 (R77, R81). -/
def decodeAlphaDec (arg : BitVec 4) (d : BitVec 40) : Decoded :=
  if arg = 0 ∧ d.extractLsb' 8 32 = 0 then .command (.alphaDec (d.extractLsb' 0 8)) else .illegal .reservedBits

/-- OP = 0x3: DATA[39:32] = 0, 1 ≤ ARG ≤ 4, and the low 8·(4 − ARG) bits of DATA are 0 (R74, R81). -/
def decodeEncGroup (arg : BitVec 4) (d : BitVec 40) : Decoded :=
  if d.extractLsb' 32 8 = 0 then
    if 1 ≤ arg.toNat ∧ arg.toNat ≤ 4 ∧ (arg = 4 ∨ d.toNat % 2 ^ (8 * (4 - arg.toNat)) = 0) then
      .command (.encGroup arg (d.extractLsb' 0 32))
    else .illegal .operandOutOfRange
  else .illegal .reservedBits

/-- OP = 0x4: ARG = 0 (R75, R81). -/
def decodeDecGroup (arg : BitVec 4) (d : BitVec 40) : Decoded :=
  if arg = 0 then
    .command (.decGroup (d.extractLsb' 32 8) (d.extractLsb' 24 8) (d.extractLsb' 16 8) (d.extractLsb' 8 8) (d.extractLsb' 0 8))
  else .illegal .reservedBits

/-- OP = 0x5: ARG = 0, DATA = 0 (R78, R81). -/
def decodeSmInit (arg : BitVec 4) (d : BitVec 40) : Decoded :=
  if arg = 0 ∧ d = 0 then .command .smInit else .illegal .reservedBits

/-- OP = 0x6: ARG = 0, DATA[39:8] = 0 (R79, R81). -/
def decodeSmFeed (arg : BitVec 4) (d : BitVec 40) : Decoded :=
  if arg = 0 ∧ d.extractLsb' 8 32 = 0 then .command (.smFeed (d.extractLsb' 0 8)) else .illegal .reservedBits

/-- OP = 0x7: ARG = 0, DATA = 0 (R78, R81). -/
def decodeSmFinalize (arg : BitVec 4) (d : BitVec 40) : Decoded :=
  if arg = 0 ∧ d = 0 then .command .smFinalize else .illegal .reservedBits

/-- The decoder of R81, one case per OP value of R71. -/
def decode (w : CommandWord) : Decoded :=
  if opField w = 0x1 then decodeAlphaEnc (argField w) (dataField w)
  else if opField w = 0x2 then decodeAlphaDec (argField w) (dataField w)
  else if opField w = 0x3 then decodeEncGroup (argField w) (dataField w)
  else if opField w = 0x4 then decodeDecGroup (argField w) (dataField w)
  else if opField w = 0x5 then decodeSmInit (argField w) (dataField w)
  else if opField w = 0x6 then decodeSmFeed (argField w) (dataField w)
  else if opField w = 0x7 then decodeSmFinalize (argField w) (dataField w)
  else .illegal .reservedOpcode

/-- The format CMD of R70: OP [47:44], ARG [43:40], DATA [39:0]. -/
def packCommand (op arg : BitVec 4) (d : BitVec 40) : CommandWord := op ++ arg ++ d

/-- The OP value of each command (R71). -/
def opOf : Instr → BitVec 4
  | .alphaEnc _ => 0x1
  | .alphaDec _ => 0x2
  | .encGroup _ _ => 0x3
  | .decGroup _ _ _ _ _ => 0x4
  | .smInit => 0x5
  | .smFeed _ => 0x6
  | .smFinalize => 0x7

/-- ARG of each command: n of ENC_GROUP, 0 in every other command (R70). -/
def argOf : Instr → BitVec 4
  | .encGroup n _ => n
  | .alphaEnc _ => 0
  | .alphaDec _ => 0
  | .decGroup _ _ _ _ _ => 0
  | .smInit => 0
  | .smFeed _ => 0
  | .smFinalize => 0

/-- DATA of each command (R74 to R79). -/
def dataOf : Instr → BitVec 40
  | .alphaEnc v => v.setWidth 40
  | .alphaDec c => c.setWidth 40
  | .encGroup _ value => value.setWidth 40
  | .decGroup s0 s1 s2 s3 s4 => s0 ++ s1 ++ s2 ++ s3 ++ s4
  | .smInit => 0
  | .smFeed c => c.setWidth 40
  | .smFinalize => 0

/-- The command word of an instruction. -/
def encode (i : Instr) : CommandWord := packCommand (opOf i) (argOf i) (dataOf i)

/-- The word of `nbits` bits `w`, numbered as spec/opcode_table.json numbers it: the command word is one 48-bit unit whose bit 0 is
the least significant (R9, R55, R70), and bits above `nbits` are 0. None where the bits do not fit a command word (R82). -/
def tableWord (nbits w : Nat) : Option CommandWord :=
  if w % 2 ^ nbits < 2 ^ 48 then some (BitVec.ofNat 48 (w % 2 ^ nbits)) else none

/-- The instruction the decoder reads from a table row's word. -/
def decodeTableWord (nbits w : Nat) : Option Instr :=
  match tableWord nbits w with
  | none => none
  | some word =>
    match decode word with
    | .command i => some i
    | .illegal _ => none

end Sys2Proof
end

