-- ==== Sys2Proof/Machine/State.lean ====
section
/-! DEFINITION. The state of the block (spec/10_state.md R22), its reset value (R22, spec/70_reset_and_hazards.md R230), the
outcome kinds of a command (spec/60_exceptions.md R200), and the reasons a step could stop. -/

namespace Sys2Proof.Machine

/-- The context states of R25; sm_state's 2-bit values are `smStateCode` in Machine/Flags.lean. -/
inductive SmState where
  /-- 0: no pending symbols; accepting input. -/
  | empty
  /-- 1: 1..4 pending symbols; accepting input. -/
  | accumulating
  /-- 2: SM_FINALIZE has succeeded; no further input accepted. -/
  | finished
  /-- 3: a context error was raised; no further input until SM_INIT or reset. -/
  | error
  deriving DecidableEq, Repr

/-- The named outcome codes of R200; their 4-bit values are `statusCode` in Machine/Flags.lean. -/
inductive Status where
  | ok
  | invalidCharacter
  | overflow
  /-- Reserved, never produced (R208). -/
  | allocationFailure
  /-- Reserved, never produced (R208). -/
  | bufferTooSmall
  | sequenceError
  | illegalCommand
  deriving DecidableEq, Repr

/-- What the host does to the block that can change its state (R32): it issues one command word, or asserts reset. -/
inductive HostEvent where
  | command (w : CommandWord)
  | reset
  deriving DecidableEq, Repr

/-- Reasons the block stops with a fault: none. "An error never transfers control and never stops the block" (R202), so every
error of the spec is a next state, and this type has no constructor. Nothing raises it; safe. -/
inductive Fault where
  deriving DecidableEq, Repr

/-- Reasons a step is refused. -/
inductive Refusal where
  /-- Raised only by an arm of `exec` for an instruction that has no meaning yet (at present no arm does). Safe: nothing is
  provable of a refused instruction's effect. -/
  | notModelled (mnemonic : String)
  deriving DecidableEq, Repr

/-- The architectural state, "exactly" the registers of R22, and the port on which the host's events wait. -/
structure State where
  /-- Outcome code of the most recent command (R23). -/
  cmdStatus : BitVec 4
  /-- Result payload (R24). -/
  resData : BitVec 40
  /-- Number of valid result units (R24). -/
  resLen : BitVec 3
  /-- Context state (R25). -/
  smState : SmState
  /-- Codes of the pending symbols (R27). -/
  hold : Hold
  /-- Number of pending symbols (R26, R27). -/
  holdCount : BitVec 3
  /-- First context error since SM_INIT or reset (R28). -/
  errCode : BitVec 4
  /-- The offending input byte of that error (R28). -/
  errByte : Byte
  /-- The input index of that error (R28). -/
  errPos : BitVec 32
  /-- Characters consumed by SM_FEED, modulo 2^32 (R29). -/
  inCount : BitVec 32
  /-- Bytes emitted, modulo 2^32 (R30). -/
  outCount : BitVec 32
  /-- The output stream since SM_INIT or reset, first byte first (R33). -/
  outStream : List Byte
  /-- The model's own field (DESIGN CHOICE, notes/assumptions/1.md): the host's events not yet taken, next one first. -/
  port : List HostEvent
  deriving DecidableEq, Repr

/-- The block right after reset: the values of R22 and R230, and no event waiting. -/
def State.reset : State where
  cmdStatus := 0
  resData := 0
  resLen := 0
  smState := .empty
  hold := #v[0x00, 0x00, 0x00, 0x00, 0x00]
  holdCount := 0
  errCode := 0
  errByte := 0x00
  errPos := 0
  inCount := 0
  outCount := 0
  outStream := []
  port := []

end Sys2Proof.Machine
end

