-- ==== Sys2Proof/Machine/Flags.lean ====
section
/-! DEFINITION. The block has no condition codes and no flags (spec/10_state.md R31). What stands in their place are the status
codes: the 4-bit outcome codes (spec/60_exceptions.md R200) and the 2-bit context-state codes (spec/10_state.md R25). -/

namespace Sys2Proof.Machine

/-- The outcome code of R200, as held in cmd_status and err_code. -/
def statusCode : Status → BitVec 4
  | .ok => 0
  | .invalidCharacter => 1
  | .overflow => 2
  | .allocationFailure => 3
  | .bufferTooSmall => 4
  | .sequenceError => 5
  | .illegalCommand => 6

/-- The value of sm_state (R25). -/
def smStateCode : SmState → BitVec 2
  | .empty => 0
  | .accumulating => 1
  | .finished => 2
  | .error => 3

/-- The state of an accepting context after SM_FEED: "k' = 0 ? EMPTY : ACCUMULATING" (R166). -/
def acceptingState (count : BitVec 3) : SmState :=
  if count = 0 then .empty else .accumulating

end Sys2Proof.Machine
end

