-- ==== Sys2Proof/Machine/Ops.lean ====
section
/-! DEFINITION. The named operations over the registers: results, errors (the block's exceptions, spec/60_exceptions.md R202 to
R206), recovery from an error (R212), output (spec/10_state.md R33) and reset (spec/70_reset_and_hazards.md R230). -/

namespace Sys2Proof.Machine

/-- `cmd_status <- code` and nothing else (R23; the whole effect of an error in state ERROR, R205(b)). -/
def setStatus (e : Status) (s : State) : State :=
  { s with cmdStatus := statusCode e }

/-- A stateless command that succeeds: the result registers and cmd_status OK (R24, R39). -/
def setResult (data : BitVec 40) (len : BitVec 3) (s : State) : State :=
  { s with resData := data, resLen := len, cmdStatus := statusCode .ok }

/-- An error that the context does not see (R206): IllegalCommand of any word, InvalidCharacter and Overflow of the stateless
commands. -/
def raiseStateless (e : Status) (s : State) : State :=
  { s with cmdStatus := statusCode e, resData := 0, resLen := 0 }

/-- Taking a context error: `raise E(byte, pos = in_count)` of SM_FEED and SM_FINALIZE, with exactly the writes that R203, R204
and R205(a) list. -/
def raiseContext (e : Status) (byte : Byte) (s : State) : State :=
  { s with
    cmdStatus := statusCode e
    errCode := statusCode e
    errByte := byte
    errPos := s.inCount
    smState := .error }

/-- All five slots 0x00 (R27). -/
def clearedHold : Hold := #v[0x00, 0x00, 0x00, 0x00, 0x00]

/-- Recovery from a context error, and the whole effect of SM_INIT on the context (R161, R212): the context as created, the output
record restarted. -/
def clearContext (s : State) : State :=
  { s with
    smState := .empty
    hold := clearedHold
    holdCount := 0
    errCode := 0
    errByte := 0x00
    errPos := 0
    inCount := 0
    outCount := 0
    outStream := [] }

/-- `Emit(b)` (R33): append one byte and count it modulo 2^32. -/
def emit (b : Byte) (s : State) : State :=
  { s with outStream := s.outStream ++ [b], outCount := s.outCount + 1 }

/-- `for b in emit, in order: Emit(b)` (R166, R176). -/
def emitAll (bs : List Byte) (s : State) : State :=
  bs.foldl (fun t b => emit b t) s

/-- `hold <- hold'; hold_count <- k'` (R166). -/
def setPending (hold : Hold) (count : BitVec 3) (s : State) : State :=
  { s with hold := hold, holdCount := count }

/-- `in_count <- (in_count + 1) mod 2^32` (R29, R166). -/
def countInput (s : State) : State :=
  { s with inCount := s.inCount + 1 }

/-- `sm_state <- q` (R166, R176). -/
def setSmState (q : SmState) (s : State) : State :=
  { s with smState := q }

/-- The reset input (R230): every register of R22 at its reset value. The events the host has yet to issue are not the block's and
stay. -/
def assertReset (s : State) : State :=
  { State.reset with port := s.port }

end Sys2Proof.Machine
end

