-- ==== Sys2Proof/Config.lean ====
section
/-! DEFINITION. The parameters the spec fixes (spec/00_scope.md R7, R8, R12; spec/43_stream_decoder.md R163), and the model's
one free value. Widths that R8 fixes (48-bit command, 32-bit counters, 32-bit read port with 4-bit address, one context)
stand in the types of Word.lean and Machine/State.lean. -/

namespace Sys2Proof.Config

/-- ALPHABET_FIRST, `!` (R7). -/
abbrev alphabetFirst : Nat := 33

/-- ALPHABET_LAST, `u` (R7). -/
abbrev alphabetLast : Nat := 117

/-- ALPHABET_SIZE (R7): the base of the number system. -/
abbrev alphabetSize : Nat := 85

/-- PAD_DIGIT (R7): the digit of `u`, which fills the missing slots of a short group on decode (R175). -/
abbrev padDigit : Digit := 84

/-- GROUP_BYTES (R7). -/
abbrev groupBytes : Nat := 4

/-- GROUP_SYMBOLS (R7). -/
abbrev groupSymbols : Nat := 5

/-- OVERFLOW_LIMIT (R7, R141): floor(0xFFFFFFFF / 85). -/
abbrev overflowLimit : Nat := 50529027

/-- The largest group value, 0xFFFFFFFF (R7 GROUP_VALUE_WIDTH, R141). -/
abbrev maxGroupValue : Nat := 0xFFFFFFFF

/-- ZERO_SHORTHAND, `z` (R7, R12): 0x7A. -/
abbrev zeroShorthand : Byte := 0x7A

/-- The whitespace set (R7, R163): space, line feed, carriage return, tab. -/
abbrev whitespace : List Byte := [0x20, 0x0A, 0x0D, 0x09]

/-- FREE VALUE (DESIGN CHOICE, safe; notes/assumptions/4.md). The digit read from a pending slot of the hold buffer whose byte is
no alphabet symbol. R27 says that a pending slot holds a code 33..117, so no run reaches such a slot and the spec gives
ROM_INV no digit there; nothing can be proved about this value beyond its range. -/
opaque heldNonSymbolDigit : Byte → Digit

end Sys2Proof.Config
end

