-- ==== Sys2Proof/Machine/Rom.lean ====
section
/-! DEFINITION. The alphabet ROM (spec/20_memory.md R50 to R53, spec/40_alphabet_rom.md R100): fixed contents, no state
(spec/10_state.md R36). -/

namespace Sys2Proof.Machine

/-- The forward ROM: `ROM_FWD(v) = v + 33` for each digit (R51). Addresses 85..127 hold no entry and no command presents one, which
the type of digits says. -/
def romFwd (v : Digit) : Byte := BitVec.ofNat 8 (v.val + Config.alphabetFirst)

/-- The inverse ROM: `Valid(c − 33)` for 33 ≤ c ≤ 117 and `Invalid` (none) otherwise (R52). -/
def romInv (c : Byte) : Option Digit :=
  if h : Config.alphabetFirst ≤ c.toNat ∧ c.toNat ≤ Config.alphabetLast then
    some ⟨c.toNat - Config.alphabetFirst, by simp only [Config.alphabetFirst, Config.alphabetLast] at *; omega⟩
  else none

/-- The two address spaces (R50). -/
inductive Space where
  | fwd
  | inv
  deriving DecidableEq, Repr

/-- What one ROM address holds: a symbol code, or a valid flag with a digit (R50). -/
inductive RomEntry where
  | code (c : Byte)
  | inverse (d : Option Digit)
  deriving DecidableEq, Repr

/-- `MemRead(space, addr, 1)` (spec/00_scope.md R11): the same reads in generic form; none at an address that holds no entry
(R50, R51, R58). -/
def memRead (space : Space) (addr : Nat) : Option RomEntry :=
  match space with
  | .fwd => if h : addr < 85 then some (.code (romFwd ⟨addr, h⟩)) else none
  | .inv => if addr < 256 then some (.inverse (romInv (BitVec.ofNat 8 addr))) else none

end Sys2Proof.Machine
end

