-- ==== Sys2Proof/Machine/Alphabet.lean ====
section
/-! DEFINITION. The commands that read the alphabet ROM directly: ALPHA_ENC, ALPHA_DEC (spec/40_alphabet_rom.md R101, R103). -/

namespace Sys2Proof.Machine

/-- ALPHA_ENC v (R101). A value above 84 is what the decoder refuses as IllegalCommand; a term that carries one has that same
effect (DESIGN CHOICE, notes/assumptions/3.md). -/
def execAlphaEnc (v : BitVec 7) (s : State) : Host.Outcome State Fault Refusal :=
  if h : v.toNat < 85 then .next (setResult ((romFwd ⟨v.toNat, h⟩).setWidth 40) 1 s)
  else .next (raiseStateless .illegalCommand s)

/-- ALPHA_DEC c (R103): the digit, or InvalidCharacter in cmd_status only. -/
def execAlphaDec (c : Byte) (s : State) : Host.Outcome State Fault Refusal :=
  match romInv c with
  | some d => .next (setResult (BitVec.ofNat 40 d.val) 1 s)
  | none => .next (raiseStateless .invalidCharacter s)

end Sys2Proof.Machine
end

