-- ==== Sys2Proof/Machine/Operands.lean ====
section
/-! DEFINITION. How operands and results are laid out (spec/30_encoding.md R74, R75, R80; spec/10_state.md R24; spec/20_memory.md
R54): group values as bytes, result symbols inside res_data. -/

namespace Sys2Proof.Machine

/-- Byte i (0 first) of a 32-bit group value, big-endian (R54). -/
def groupByte (value : GroupValue) (i : Nat) : Byte := value.extractLsb' (8 * (3 - i)) 8

/-- `[v[31:24], v[23:16], v[15:8], v[7:0]]` of a number that fits 32 bits (R141). -/
def groupBytesOf (v : Nat) : GroupBytes :=
  let value : GroupValue := BitVec.ofNat 32 v
  ⟨groupByte value 0, groupByte value 1, groupByte value 2, groupByte value 3⟩

/-- The four bytes in emission order, most significant first (R54(c)). -/
def groupList (g : GroupBytes) : List Byte := [g.b0, g.b1, g.b2, g.b3]

/-- `b0 ++ b1 ++ b2 ++ b3` (R9, R142). -/
def groupWord (g : GroupBytes) : GroupValue := g.b0 ++ g.b1 ++ g.b2 ++ g.b3

/-- The value of the bytes of a group, first byte most significant, the missing ones 0 (R54(a), R74, R126). -/
def packGroup (bytes : List Byte) : GroupValue :=
  bytes.getD 0 0 ++ bytes.getD 1 0 ++ bytes.getD 2 0 ++ bytes.getD 3 0

/-- Symbol j at bits [39 − 8j : 32 − 8j], the bits below the last symbol 0 (R24, R122). -/
def packSymbols (syms : List Byte) : BitVec 40 :=
  syms.getD 0 0 ++ syms.getD 1 0 ++ syms.getD 2 0 ++ syms.getD 3 0 ++ syms.getD 4 0

/-- The byte of res_data at bits [39 − 8j : 32 − 8j] (R24). -/
def symbolAt (data : BitVec 40) (j : Nat) : Byte := data.extractLsb' (8 * (4 - j)) 8

end Sys2Proof.Machine
end

