-- ==== Sys2Proof/Machine/GroupCodec.lean ====
section
/-! DEFINITION. The two pure group transforms: GroupEncode (spec/41_group_encoder.md R121) and GroupDecode
(spec/42_group_decoder.md R141), on exact natural numbers (spec/00_scope.md R10). -/

namespace Sys2Proof.Machine

/-- `x mod 85` as a digit. -/
def lastDigit (x : Nat) : Digit := ⟨x % Config.alphabetSize, Nat.mod_lt x (by decide)⟩

/-- The loop of R121: `count` remainders of repeated division by 85, least significant first. -/
def remainders : (count x : Nat) → List Digit
  | 0, _ => []
  | count + 1, x => lastDigit x :: remainders count (x / Config.alphabetSize)

/-- The five digits d[0] .. d[4] of a group value: "the remainder sequence is reversed before emission" (R120). -/
def groupDigits (value : GroupValue) : List Digit := (remainders Config.groupSymbols value.toNat).reverse

/-- GroupEncode(n, V) (R121): `z` for an all-zero full group, else the first n + 1 of the five symbols. -/
def groupEncode (n : Nat) (value : GroupValue) : List Byte :=
  if n = Config.groupBytes ∧ value = 0 then [Config.zeroShorthand]
  else ((groupDigits value).map romFwd).take (n + 1)

/-- `v <- v*85 + d[i]` over a list of digits, from 0 (R141). -/
def accumulate (ds : List Digit) : Nat := ds.foldl (fun v d => v * Config.alphabetSize + d.val) 0

/-- GroupDecode(d0 .. d4) (R141): the two-step overflow check, then the four big-endian bytes; none is Overflow. A value equal to
either limit is accepted. -/
def groupDecode (d0 d1 d2 d3 d4 : Digit) : Option GroupBytes :=
  let v := accumulate [d0, d1, d2, d3]
  if v > Config.overflowLimit then none
  else if v * Config.alphabetSize > Config.maxGroupValue - d4.val then none
  else some (groupBytesOf (v * Config.alphabetSize + d4.val))

end Sys2Proof.Machine
end

