-- ==== Sys2Proof/Machine/Group.lean ====
section
/-! DEFINITION. The stateless group commands: ENC_GROUP (spec/41_group_encoder.md R122) and DEC_GROUP
(spec/42_group_decoder.md R142). -/

namespace Sys2Proof.Machine

/-- ENC_GROUP n, V (R122). An operand outside R73's range is what the decoder refuses as IllegalCommand; a term that carries one
has that same effect (DESIGN CHOICE, notes/assumptions/3.md). -/
def execEncGroup (n : BitVec 4) (value : GroupValue) (s : State) : Host.Outcome State Fault Refusal :=
  if Instr.groupOperandLegal n value then
    let syms := groupEncode n.toNat value
    .next (setResult (packSymbols syms) (BitVec.ofNat 3 syms.length) s)
  else .next (raiseStateless .illegalCommand s)

/-- DEC_GROUP s0 .. s4 (R142): validate the five symbols, then decode; InvalidCharacter comes before Overflow (R210). -/
def execDecGroup (s0 s1 s2 s3 s4 : Byte) (s : State) : Host.Outcome State Fault Refusal :=
  match romInv s0, romInv s1, romInv s2, romInv s3, romInv s4 with
  | some d0, some d1, some d2, some d3, some d4 =>
    match groupDecode d0 d1 d2 d3 d4 with
    | none => .next (raiseStateless .overflow s)
    | some g => .next (setResult ((groupWord g).setWidth 40) 4 s)
  | _, _, _, _, _ => .next (raiseStateless .invalidCharacter s)

end Sys2Proof.Machine
end

