-- ==== Sys2Proof/Machine/Stream.lean ====
section
/-! DEFINITION. The streaming decoder state machine: SM_INIT, SM_FEED, SM_FINALIZE (spec/43_stream_decoder.md R160 to R180). -/

namespace Sys2Proof.Machine

/-- The classes of input bytes (R163). -/
inductive CharClass where
  | whitespace
  | zero
  | symbol (d : Digit)
  | other
  deriving DecidableEq, Repr

/-- The class of a byte (R163). -/
def charClass (c : Byte) : CharClass :=
  if c ∈ Config.whitespace then .whitespace
  else if c = Config.zeroShorthand then .zero
  else
    match romInv c with
    | some d => .symbol d
    | none => .other

/-- What FeedChar returns: a new hold buffer and count with the bytes to emit, or an error (R165). -/
inductive FeedResult where
  | accepted (hold : Hold) (count : BitVec 3) (bytes : List Byte)
  | failed (e : Status)
  deriving DecidableEq, Repr

/-- "digit of ROM_INV(hold[i])" (R165, R175). A pending slot always holds a symbol (R27); for a byte that is none the digit is a
free value (notes/assumptions/4.md). -/
def heldDigit (c : Byte) : Digit :=
  match romInv c with
  | some d => d
  | none => Config.heldNonSymbolDigit c

/-- The fifth symbol, of digit x, completes the group (R165, R170). -/
def flushFull (hold : Hold) (x : Digit) : FeedResult :=
  match groupDecode (heldDigit hold[0]) (heldDigit hold[1]) (heldDigit hold[2]) (heldDigit hold[3]) x with
  | none => .failed .overflow
  | some g => .accepted clearedHold 0 (groupList g)

/-- FeedChar(hold, k, c) (R165). In the states of a run k ≤ 4 (R26(a)); the pseudocode's last branch is read for any k that is
not below 4 (notes/assumptions/5.md). -/
def feedChar (hold : Hold) (k : BitVec 3) (c : Byte) : FeedResult :=
  match charClass c with
  | .whitespace => .accepted hold k []
  | .zero => if k = 0 then .accepted hold 0 [0x00, 0x00, 0x00, 0x00] else .failed .invalidCharacter
  | .other => .failed .invalidCharacter
  | .symbol x =>
    if k.toNat < 4 then .accepted (hold.setIfInBounds k.toNat c) (k + 1) []
    else flushFull hold x

/-- Digit i of a short group of k pending symbols: the held symbol's, or the pad digit 84 in a missing slot (R175). -/
def shortDigit (k : BitVec 3) (i : Nat) (c : Byte) : Digit :=
  if i < k.toNat then heldDigit c else Config.padDigit

/-- FlushShort(hold, k) (R175): pad with `u`, decode, keep the first k − 1 bytes; none is Overflow. -/
def flushShort (hold : Hold) (k : BitVec 3) : Option (List Byte) :=
  match groupDecode (shortDigit k 0 hold[0]) (shortDigit k 1 hold[1]) (shortDigit k 2 hold[2]) (shortDigit k 3 hold[3])
    (shortDigit k 4 hold[4]) with
  | none => none
  | some g => some ((groupList g).take (k.toNat - 1))

/-- SM_INIT (R161): the context and cmd_status; res_data and res_len stay. Accepted in every state. -/
def execSmInit (s : State) : Host.Outcome State Fault Refusal :=
  .next (setStatus .ok (clearContext s))

/-- SM_FEED in EMPTY or ACCUMULATING (R166). -/
def feedOpen (c : Byte) (s : State) : State :=
  match feedChar s.hold s.holdCount c with
  | .failed e => raiseContext e c s
  | .accepted hold count bytes =>
    setStatus .ok (setSmState (acceptingState count) (countInput (emitAll bytes (setPending hold count s))))

/-- SM_FEED c (R166): SequenceError in ERROR and FINISHED (R180), else one character. -/
def execSmFeed (c : Byte) (s : State) : Host.Outcome State Fault Refusal :=
  if s.smState = .error then .next (setStatus .sequenceError s)
  else if s.smState = .finished then .next (raiseContext .sequenceError c s)
  else .next (feedOpen c s)

/-- SM_FINALIZE in EMPTY or ACCUMULATING (R176). -/
def finalizeOpen (s : State) : State :=
  if s.holdCount = 0 then setStatus .ok (setSmState .finished s)
  else
    match flushShort s.hold s.holdCount with
    | none => raiseContext .overflow 0x00 s
    | some bytes => setStatus .ok (setSmState .finished (setPending clearedHold 0 (emitAll bytes s)))

/-- SM_FINALIZE (R176): SequenceError in ERROR and FINISHED (R180), else the end of input. -/
def execSmFinalize (s : State) : Host.Outcome State Fault Refusal :=
  if s.smState = .error then .next (setStatus .sequenceError s)
  else if s.smState = .finished then .next (raiseContext .sequenceError 0x00 s)
  else .next (finalizeOpen s)

end Sys2Proof.Machine
end

