-- ==== Sys2Proof/Machine/Dispatch.lean ====
section
/-! DEFINITION. One arm per command: the meaning of each instruction. -/

namespace Sys2Proof.Machine

def exec (i : Instr) (s : State) : Host.Outcome State Fault Refusal :=
  match i with
  | .alphaEnc v => Sys2Proof.Machine.execAlphaEnc v s
  | .alphaDec c => Sys2Proof.Machine.execAlphaDec c s
  | .encGroup n value => Sys2Proof.Machine.execEncGroup n value s
  | .decGroup s0 s1 s2 s3 s4 => Sys2Proof.Machine.execDecGroup s0 s1 s2 s3 s4 s
  | .smInit => Sys2Proof.Machine.execSmInit s
  | .smFeed c => Sys2Proof.Machine.execSmFeed c s
  | .smFinalize => Sys2Proof.Machine.execSmFinalize s

end Sys2Proof.Machine
end

