-- ==== Sys2Proof/Machine/CommandPort.lean ====
section
/-! DEFINITION. The command port and the reset input (spec/10_state.md R32): what the block does with each host event. -/

namespace Sys2Proof.Machine

/-- One command word (R81): the decoded command runs; a refused word raises IllegalCommand (R206), which comes before every other
error (spec/60_exceptions.md R210). -/
def acceptCommand (w : CommandWord) (s : State) : Host.Outcome State Fault Refusal :=
  match decode w with
  | .command i => exec i s
  | .illegal _ => .next (raiseStateless .illegalCommand s)

/-- One host event: a command word, or reset (spec/70_reset_and_hazards.md R230). -/
def acceptEvent (e : HostEvent) (s : State) : Host.Outcome State Fault Refusal :=
  match e with
  | .command w => acceptCommand w s
  | .reset => .next (assertReset s)

/-- The next event of the port, in issue order (spec/20_memory.md R60); with none waiting the block holds its state
(spec/60_exceptions.md R218; notes/assumptions/1.md). -/
def takeEvent (s : State) : Host.Outcome State Fault Refusal :=
  match s.port with
  | [] => .next s
  | e :: rest => acceptEvent e { s with port := rest }

/-- The host issues a command word that the block takes next. -/
def issueNext (w : CommandWord) (s : State) : State :=
  { s with port := .command w :: s.port }

end Sys2Proof.Machine
end

