-- ==== Sys2Proof/Machine/Step.lean ====
section
/-! DEFINITION. One step of the block: one host event, to completion (spec/00_scope.md R5; spec/10_state.md R21). -/

namespace Sys2Proof.Machine

/-- One step. -/
def step (s : State) : Host.Outcome State Fault Refusal := takeEvent s

/-- The state in which the table word `w` of `nbits` bits is the command the very next step takes. -/
def State.withFetchWord (s : State) (nbits w : Nat) : State := issueNext (BitVec.ofNat 48 (w % 2 ^ nbits)) s

end Sys2Proof.Machine
end

