-- ==== Sys2Proof/Machine/Pseudo.lean ====
section
/-! DEFINITION. The pseudo-commands FEEDS, DECODE and ENCODE (spec/30_encoding.md R84 to R86) and the host compositions over the
commands: running a sequence, collecting an encoded text (spec/41_group_encoder.md R126), one-shot decode
(spec/43_stream_decoder.md R185). -/

namespace Sys2Proof.Machine

/-- FEEDS "t": one SM_FEED per byte, in text order (R84). -/
def feedsProgram (text : List Byte) : List Instr := text.map .smFeed

/-- DECODE "t": SM_INIT; FEEDS "t"; SM_FINALIZE (R85). -/
def decodeProgram (text : List Byte) : List Instr := .smInit :: (feedsProgram text ++ [.smFinalize])

/-- The ENC_GROUP of one group of 1 to 4 bytes: n is their number, the missing bytes are 0 (R74, R86). -/
def groupCommand (bytes : List Byte) : Instr := .encGroup (BitVec.ofNat 4 bytes.length) (packGroup bytes)

/-- The groups of a message: four bytes each, the last one possibly short (R86, R126; spec/20_memory.md R56(a)). -/
def messageGroups : List Byte → List (List Byte)
  | b0 :: b1 :: b2 :: b3 :: rest => [b0, b1, b2, b3] :: messageGroups rest
  | [] => []
  | short => [short]

/-- ENCODE [m0, ..]: one ENC_GROUP per group, in message order (R86). -/
def encodeProgram (message : List Byte) : List Instr := (messageGroups message).map groupCommand

/-- `Encode(m)` (R126): the text of a message, group by group. -/
def encodeMessage (message : List Byte) : List Byte :=
  ((messageGroups message).map fun g => groupEncode g.length (packGroup g)).flatten

/-- The res_len symbols that ENC_GROUP leaves in res_data, in emission order (R24, R86). -/
def resultSymbols (s : State) : List Byte := (List.range s.resLen.toNat).map (symbolAt s.resData)

/-- The host runs commands one after another, until one stops the block (none does). -/
def runCommands : List Instr → State → Host.Outcome State Fault Refusal
  | [], s => .next s
  | i :: rest, s =>
    match exec i s with
    | .next t => runCommands rest t
    | .fault f => .fault f
    | .refused r => .refused r

/-- The host feeds a text in chunks, each as its FEEDS, one after another (spec/43_stream_decoder.md R186). -/
def feedChunks : List (List Byte) → State → Host.Outcome State Fault Refusal
  | [], s => .next s
  | chunk :: rest, s =>
    match runCommands (feedsProgram chunk) s with
    | .next t => feedChunks rest t
    | .fault f => .fault f
    | .refused r => .refused r

/-- The host runs commands and, after each, appends the result symbols to the text it collects (R86). None if the block stops
(it does not). -/
def collectSymbols : List Instr → State → Option (List Byte × State)
  | [], s => some ([], s)
  | i :: rest, s =>
    match exec i s with
    | .next t => (collectSymbols rest t).map fun r => (resultSymbols t ++ r.1, r.2)
    | .fault _ => none
    | .refused _ => none

/-- The result of a one-shot decode (R185): the bytes of the stream, or the first error with its position and byte. -/
inductive DecodeResult where
  | bytes (out : List Byte)
  | failed (code : BitVec 4) (pos : BitVec 32) (byte : Byte)
  /-- A command stopped the block: never (R202). -/
  | stopped
  deriving DecidableEq, Repr

/-- `return Err(err_code, err_pos, err_byte)` (R185). -/
def decodeError (s : State) : DecodeResult := .failed s.errCode s.errPos s.errByte

/-- The end of `Decode`: SM_FINALIZE, then the stream or the error (R185). -/
def decodeEnd (s : State) : DecodeResult :=
  match exec .smFinalize s with
  | .next t => if t.cmdStatus ≠ 0 then decodeError t else .bytes t.outStream
  | .fault _ => .stopped
  | .refused _ => .stopped

/-- The loop of `Decode`: feed each byte, abandon at the first error (R185). -/
def decodeLoop : List Byte → State → DecodeResult
  | [], s => decodeEnd s
  | c :: rest, s =>
    match exec (.smFeed c) s with
    | .next t => if t.cmdStatus ≠ 0 then decodeError t else decodeLoop rest t
    | .fault _ => .stopped
    | .refused _ => .stopped

/-- `Decode(t)` (R185), from any state: it begins with SM_INIT. -/
def decodeText (text : List Byte) (s : State) : DecodeResult :=
  match exec .smInit s with
  | .next t => decodeLoop text t
  | .fault _ => .stopped
  | .refused _ => .stopped

/-- The host puts commands on the port, behind the events already there, as the words of spec/30_encoding.md R70. -/
def issueAll (program : List Instr) (s : State) : State :=
  { s with port := s.port ++ program.map fun i => .command (encode i) }

end Sys2Proof.Machine
end

