-- ==== Sys2Proof/Machine/Assembler.lean ====
section
/-! DEFINITION. The assembler syntax of spec/30_encoding.md R83, with the pseudo-commands of R84 to R86: one line of text to the
commands it stands for, and a command word to its 12 hexadecimal digits. What R83 leaves open about text (among others spaces, the
escape of a double quote, letter case of hexadecimal digits, characters beyond ASCII, literals in lists) is fixed here (DESIGN CHOICE, notes/assumptions/9.md). -/

namespace Sys2Proof.Machine

/-- A line's text, character by character. -/
abbrev Text := List Char

/-- The text without its leading spaces. -/
def skipSpaces (t : Text) : Text := t.dropWhile (· = ' ')

/-- The text without its trailing spaces. -/
def trimEnd (t : Text) : Text := (skipSpaces t.reverse).reverse

/-- The value of a decimal digit. -/
def decValue (c : Char) : Option Nat :=
  if '0'.toNat ≤ c.toNat ∧ c.toNat ≤ '9'.toNat then some (c.toNat - '0'.toNat) else none

/-- The value of a hexadecimal digit, in either letter case. -/
def hexValue (c : Char) : Option Nat :=
  if 'A'.toNat ≤ c.toNat ∧ c.toNat ≤ 'F'.toNat then some (c.toNat - 'A'.toNat + 10)
  else if 'a'.toNat ≤ c.toNat ∧ c.toNat ≤ 'f'.toNat then some (c.toNat - 'a'.toNat + 10)
  else decValue c

/-- Digits of one base, most significant first, as far as they go: the number and the rest. -/
def scanDigits (base : Nat) (value : Char → Option Nat) : Text → Nat → Nat × Text
  | [], acc => (acc, [])
  | c :: rest, acc =>
    match value c with
    | some d => scanDigits base value rest (acc * base + d)
    | none => (acc, c :: rest)

/-- "Numbers are decimal or `0x` hexadecimal" (R83): the number at the head of the text. -/
def scanNumber (t : Text) : Option (Nat × Text) :=
  match t with
  | '0' :: 'x' :: c :: rest => (hexValue c).map fun _ => scanDigits 16 hexValue (c :: rest) 0
  | c :: rest => (decValue c).map fun _ => scanDigits 10 decValue (c :: rest) 0
  | [] => none

/-- A number that is the whole text. -/
def wholeNumber (t : Text) : Option Nat :=
  match scanNumber t with
  | some (n, []) => some n
  | _ => none

/-- A number below a bound. -/
def below (bound : Nat) (n : Option Nat) : Option Nat := n.bind fun m => if m < bound then some m else none

/-- "c a number 0..255 or a character literal `'x'`" (R83). A character's code is its byte (R12); R12 names ASCII only, and that a
character of code 128..255 stands for the byte of that code, and that a literal knows no escape, is the model's choice
(DESIGN CHOICE, notes/assumptions/9.md). -/
def byteOperand (t : Text) : Option Byte :=
  match t with
  | ['\'', x, '\''] => (below 256 (some x.toNat)).map (BitVec.ofNat 8)
  | _ => (below 256 (wholeNumber t)).map (BitVec.ofNat 8)

/-- The text between a leading and a final double quote. -/
def quoted (t : Text) : Option Text :=
  match t with
  | '"' :: rest =>
    match rest.reverse with
    | '"' :: inner => some inner.reverse
    | _ => none
  | _ => none

/-- A backslash before a double quote is the quote's escape; every other character stands for itself. -/
def unescape : Text → Text
  | '\\' :: '"' :: rest => '"' :: unescape rest
  | c :: rest => c :: unescape rest
  | [] => []

/-- Characters as bytes, each the byte of its code (spec/00_scope.md R12). R12 gives ASCII codes only: that a character of code
128..255 stands for the byte of its Unicode code point, and that a text with a larger code is refused, is the model's choice
(DESIGN CHOICE, notes/assumptions/9.md). -/
def textBytes (t : Text) : Option (List Byte) :=
  t.mapM fun c => (below 256 (some c.toNat)).map (BitVec.ofNat 8)

/-- The text cut at commas. -/
def splitCommas : Text → List Text
  | [] => [[]]
  | c :: rest =>
    match splitCommas rest with
    | [] => [[c]]
    | part :: parts => if c = ',' then [] :: part :: parts else (c :: part) :: parts

/-- `[b0, ..., b(n-1)]` (R83, R86); `[]` is the empty list. R83 gives the character literal only for the c of ALPHA_DEC and
SM_FEED: that an element may be a literal too, except of a comma (the list is cut at commas first), is the model's choice
(DESIGN CHOICE, notes/assumptions/9.md). -/
def byteList (t : Text) : Option (List Byte) :=
  match t with
  | '[' :: rest =>
    match rest.reverse with
    | ']' :: inner =>
      if skipSpaces inner = [] then some []
      else (splitCommas inner.reverse).mapM fun p => byteOperand (trimEnd (skipSpaces p))
    | _ => none
  | _ => none

/-- A legal instruction as a one-line program. -/
def single (i : Instr) : Option (List Instr) := if i.wellFormed then some [i] else none

/-- `ALPHA_ENC v`, v a number 0..84. -/
def asmAlphaEnc (t : Text) : Option (List Instr) :=
  (below 85 (wholeNumber t)).bind fun v => single (.alphaEnc (BitVec.ofNat 7 v))

/-- `ENC_GROUP n, 0xB0B1B2B3` and `ENC_GROUP n, [b0, ..., b(n-1)]`. -/
def asmEncGroup (t : Text) : Option (List Instr) :=
  match scanNumber t with
  | some (n, rest) =>
    match skipSpaces rest with
    | ',' :: operand =>
      match skipSpaces operand with
      | '[' :: list =>
        (byteList ('[' :: list)).bind fun bytes => if bytes.length = n ∧ n < 16 then single (groupCommand bytes) else none
      | number =>
        (below (2 ^ 32) (wholeNumber number)).bind fun v =>
          if n < 16 then single (.encGroup (BitVec.ofNat 4 n) (BitVec.ofNat 32 v)) else none
    | _ => none
  | none => none

/-- DEC_GROUP of five symbol codes. -/
def decGroupOf (bytes : List Byte) : Option (List Instr) :=
  match bytes with
  | [s0, s1, s2, s3, s4] => single (.decGroup s0 s1 s2 s3 s4)
  | _ => none

/-- The five bytes of a 40-bit number, the most significant first (R75, R83). -/
def fiveBytes (v : BitVec 40) : List Byte := (List.range 5).map (symbolAt v)

/-- `DEC_GROUP "s0s1s2s3s4"` and `DEC_GROUP 0xHHHHHHHHHH`. -/
def asmDecGroup (t : Text) : Option (List Instr) :=
  match quoted t with
  | some inner => (textBytes (if inner.length = 5 then inner else unescape inner)).bind decGroupOf
  | none => (below (2 ^ 40) (wholeNumber t)).bind fun v => decGroupOf (fiveBytes (BitVec.ofNat 40 v))

/-- The bytes of a quoted text, for FEEDS and DECODE (R84, R85). -/
def quotedBytes (t : Text) : Option (List Byte) := (quoted t).bind fun inner => textBytes (unescape inner)

/-- One line (R83 to R86): a mnemonic, and its operand after at least one space. None if the line is not of the syntax. -/
def assembleLine (line : Text) : Option (List Instr) :=
  let body := trimEnd (skipSpaces line)
  let mnemonic := body.takeWhile (· ≠ ' ')
  let operand := skipSpaces (body.dropWhile (· ≠ ' '))
  if mnemonic = "ALPHA_ENC".toList then asmAlphaEnc operand
  else if mnemonic = "ALPHA_DEC".toList then (byteOperand operand).bind fun c => single (.alphaDec c)
  else if mnemonic = "ENC_GROUP".toList then asmEncGroup operand
  else if mnemonic = "DEC_GROUP".toList then asmDecGroup operand
  else if mnemonic = "SM_INIT".toList then (if operand = [] then single .smInit else none)
  else if mnemonic = "SM_FEED".toList then (byteOperand operand).bind fun c => single (.smFeed c)
  else if mnemonic = "SM_FINALIZE".toList then (if operand = [] then single .smFinalize else none)
  else if mnemonic = "FEEDS".toList then (quotedBytes operand).map feedsProgram
  else if mnemonic = "DECODE".toList then (quotedBytes operand).map decodeProgram
  else if mnemonic = "ENCODE".toList then (byteList operand).map encodeProgram
  else none

/-- A hexadecimal digit, capital. -/
def hexChar (n : Nat) : Char := "0123456789ABCDEF".toList.getD n '0'

/-- "A command word is written as 12 hex digits" (R83). -/
def wordText (w : CommandWord) : Text := (List.range 12).map fun i => hexChar (w.toNat / 16 ^ (11 - i) % 16)

end Sys2Proof.Machine
end

