-- ==== Sys2Proof/Machine/ReadPort.lean ====
section
/-! DEFINITION. The read port (spec/10_state.md R34, R35): a pure view of the registers; a read changes no state. -/

namespace Sys2Proof.Machine

/-- STATUS: [3:0] cmd_status, [7:4] err_code, [9:8] sm_state, [12:10] hold_count, [15:13] res_len, [31:16] 0. -/
def statusRegister (s : State) : BitVec 32 :=
  0#16 ++ s.resLen ++ s.holdCount ++ smStateCode s.smState ++ s.errCode ++ s.cmdStatus

/-- The register at a read-port address; the reserved addresses 0x9..0xF and all reserved bits read as 0 (R35). -/
def readPort (s : State) (addr : BitVec 4) : BitVec 32 :=
  match addr.toNat with
  | 0x0 => statusRegister s
  | 0x1 => s.resData.extractLsb' 0 32
  | 0x2 => (s.resData.extractLsb' 32 8).setWidth 32
  | 0x3 => s.hold[0] ++ s.hold[1] ++ s.hold[2] ++ s.hold[3]
  | 0x4 => s.hold[4].setWidth 32
  | 0x5 => s.errByte.setWidth 32
  | 0x6 => s.errPos
  | 0x7 => s.inCount
  | 0x8 => s.outCount
  | _ => 0

end Sys2Proof.Machine
end

