-- ==== Sys2Proof/Safety.lean ====
section
/-! DEFINITION. The terms claims are stated in: the invariants of the block (spec/10_state.md R22, R26, R27, R28, R30;
spec/60_exceptions.md R200), which parts of two states agree, and the numbers and byte classes of the spec written out
independently of the operations that compute them. -/

namespace Sys2Proof

/-- The stateless commands (R39). -/
def Instr.stateless : Instr → Bool
  | .alphaEnc _ => true
  | .alphaDec _ => true
  | .encGroup _ _ => true
  | .decGroup _ _ _ _ _ => true
  | .smInit => false
  | .smFeed _ => false
  | .smFinalize => false

/-- The command word of R70 to R79 as a number: OP·2^44 + ARG·2^40 + DATA. -/
def commandNumber : Instr → Nat
  | .alphaEnc v => 0x1 * 2 ^ 44 + v.toNat
  | .alphaDec c => 0x2 * 2 ^ 44 + c.toNat
  | .encGroup n value => 0x3 * 2 ^ 44 + n.toNat * 2 ^ 40 + value.toNat
  | .decGroup s0 s1 s2 s3 s4 =>
    0x4 * 2 ^ 44 + s0.toNat * 2 ^ 32 + s1.toNat * 2 ^ 24 + s2.toNat * 2 ^ 16 + s3.toNat * 2 ^ 8 + s4.toNat
  | .smInit => 0x5 * 2 ^ 44
  | .smFeed c => 0x6 * 2 ^ 44 + c.toNat
  | .smFinalize => 0x7 * 2 ^ 44

/-- R74, R81: "n = 3 requires d[7:0] = 0; n = 2 requires d[15:0] = 0; n = 1 requires d[23:0] = 0". -/
def paddingIsZero (n value : Nat) : Prop :=
  (n = 3 → value % 2 ^ 8 = 0) ∧ (n = 2 → value % 2 ^ 16 = 0) ∧ (n = 1 → value % 2 ^ 24 = 0)

/-- The legal operands of each command (R73). -/
def legalOperands : Instr → Prop
  | .alphaEnc v => v.toNat ≤ 84
  | .alphaDec _ => True
  | .encGroup n value => 1 ≤ n.toNat ∧ n.toNat ≤ 4 ∧ paddingIsZero n.toNat value.toNat
  | .decGroup _ _ _ _ _ => True
  | .smInit => True
  | .smFeed _ => True
  | .smFinalize => True

/-- Class symbol (R163): a code 33..117. -/
abbrev isSymbol (c : Byte) : Prop := 33 ≤ c.toNat ∧ c.toNat ≤ 117

/-- Class whitespace (R163). -/
abbrev isWhitespace (c : Byte) : Prop := c = 0x20 ∨ c = 0x0A ∨ c = 0x0D ∨ c = 0x09

/-- Class other (R163): neither whitespace, nor `z`, nor a symbol. -/
abbrev isOther (c : Byte) : Prop := ¬isWhitespace c ∧ c ≠ 0x7A ∧ ¬isSymbol c

/-- W = d0·85^4 + d1·85^3 + d2·85^2 + d3·85 + d4 (R143). -/
def groupNumber (d0 d1 d2 d3 d4 : Nat) : Nat := d0 * 85 ^ 4 + d1 * 85 ^ 3 + d2 * 85 ^ 2 + d3 * 85 + d4

/-- The number of five symbol codes, each digit = code − 33 (R13). -/
def symbolsNumber (c0 c1 c2 c3 c4 : Byte) : Nat :=
  groupNumber (c0.toNat - 33) (c1.toNat - 33) (c2.toNat - 33) (c3.toNat - 33) (c4.toNat - 33)

/-- The digit of slot i of a short group of k symbols: its symbol's, or 84 in a missing slot (R175). -/
def paddedDigit (k i : Nat) (c : Byte) : Nat := if i < k then c.toNat - 33 else 84

/-- The padded group of a short group of k symbols, as a number (R175, R178). -/
def paddedNumber (k : Nat) (hold : Hold) : Nat :=
  groupNumber (paddedDigit k 0 hold[0]) (paddedDigit k 1 hold[1]) (paddedDigit k 2 hold[2]) (paddedDigit k 3 hold[3])
    (paddedDigit k 4 hold[4])

/-- The four big-endian bytes of a number below 2^32 (R54(c)). -/
def bigEndian (w : Nat) : List Byte :=
  [BitVec.ofNat 8 (w / 2 ^ 24), BitVec.ofNat 8 (w / 2 ^ 16), BitVec.ofNat 8 (w / 2 ^ 8), BitVec.ofNat 8 w]

/-- Symbol j of the encoding of a group value: the code of digit (V div 85^(4−j)) mod 85 (R121). -/
def encodedSymbol (value j : Nat) : Nat := value / 85 ^ (4 - j) % 85 + 33

/-- res_data of ENC_GROUP for a group of n bytes: symbol j at bits [39−8j : 32−8j] for j = 0..n (n is at least 1), zeros
below (R24, R122). -/
def encodedNumber (n value : Nat) : Nat :=
  encodedSymbol value 0 * 2 ^ 32 + encodedSymbol value 1 * 2 ^ 24 +
    (if 2 ≤ n then encodedSymbol value 2 * 2 ^ 16 else 0) +
    (if 3 ≤ n then encodedSymbol value 3 * 2 ^ 8 else 0) +
    (if 4 ≤ n then encodedSymbol value 4 else 0)

end Sys2Proof

namespace Sys2Proof.Machine

/-- The context accepts input (R25). -/
abbrev State.accepting (s : State) : Prop := s.smState = .empty ∨ s.smState = .accumulating

/-- Every pending slot holds a symbol's code (R27). -/
def State.heldAreSymbols (s : State) : Prop :=
  (0 < s.holdCount.toNat → isSymbol s.hold[0]) ∧ (1 < s.holdCount.toNat → isSymbol s.hold[1]) ∧
  (2 < s.holdCount.toNat → isSymbol s.hold[2]) ∧ (3 < s.holdCount.toNat → isSymbol s.hold[3])

/-- Every slot that is not pending holds 0x00 (R27). -/
def State.freeAreZero (s : State) : Prop :=
  (s.holdCount.toNat ≤ 0 → s.hold[0] = 0x00) ∧ (s.holdCount.toNat ≤ 1 → s.hold[1] = 0x00) ∧
  (s.holdCount.toNat ≤ 2 → s.hold[2] = 0x00) ∧ (s.holdCount.toNat ≤ 3 → s.hold[3] = 0x00) ∧ s.hold[4] = 0x00

/-- The invariants that hold between any two commands. -/
structure State.Inv (s : State) : Prop where
  /-- R26(a): "hold-count is always < 5". -/
  holdCount_le : s.holdCount.toNat ≤ 4
  /-- R26(b). -/
  empty_none : s.smState = .empty → s.holdCount = 0
  /-- R26(b). -/
  accumulating_some : s.smState = .accumulating → 1 ≤ s.holdCount.toNat
  /-- R26(c). -/
  finished_none : s.smState = .finished → s.holdCount = 0
  /-- R26(e). -/
  errCode_iff : s.errCode = 0 ↔ s.smState ≠ .error
  /-- R27. -/
  held_symbols : s.heldAreSymbols
  /-- R27; hold[4] reads 0x00 between commands. -/
  free_zero : s.freeAreZero
  /-- R200: the codes that are ever produced. -/
  cmdStatus_code : s.cmdStatus = 0 ∨ s.cmdStatus = 1 ∨ s.cmdStatus = 2 ∨ s.cmdStatus = 5 ∨ s.cmdStatus = 6
  /-- R28, R200: a context error is InvalidCharacter, Overflow or SequenceError. -/
  errCode_code : s.errCode = 0 ∨ s.errCode = 1 ∨ s.errCode = 2 ∨ s.errCode = 5
  /-- R22, R28: with no error recorded, its byte and position are still as SM_INIT or reset left them. -/
  noError_clear : s.errCode = 0 → s.errByte = 0x00 ∧ s.errPos = 0
  /-- R22: res_len is 0..5. -/
  resLen_le : s.resLen.toNat ≤ 5
  /-- R30: out_count is the number of bytes emitted, modulo 2^32. -/
  outCount_eq : s.outCount = BitVec.ofNat 32 s.outStream.length

/-- Every register of R22 at its reset value (R230). -/
structure State.AtReset (s : State) : Prop where
  cmdStatus : s.cmdStatus = 0
  resData : s.resData = 0
  resLen : s.resLen = 0
  smState : s.smState = .empty
  hold : s.hold = #v[0x00, 0x00, 0x00, 0x00, 0x00]
  holdCount : s.holdCount = 0
  errCode : s.errCode = 0
  errByte : s.errByte = 0x00
  errPos : s.errPos = 0
  inCount : s.inCount = 0
  outCount : s.outCount = 0
  outStream : s.outStream = []

/-- Two states have the same streaming context: sm_state, hold, hold_count, err_*, in_count, out_count, out_stream (R39). -/
structure SameContext (s t : State) : Prop where
  smState : t.smState = s.smState
  hold : t.hold = s.hold
  holdCount : t.holdCount = s.holdCount
  errCode : t.errCode = s.errCode
  errByte : t.errByte = s.errByte
  errPos : t.errPos = s.errPos
  inCount : t.inCount = s.inCount
  outCount : t.outCount = s.outCount
  outStream : t.outStream = s.outStream

/-- Two states have the same result registers (R24). -/
structure SameResult (s t : State) : Prop where
  resData : t.resData = s.resData
  resLen : t.resLen = s.resLen

/-- Two states have the same error record (R28). -/
structure SameErrorRecord (s t : State) : Prop where
  errCode : t.errCode = s.errCode
  errByte : t.errByte = s.errByte
  errPos : t.errPos = s.errPos

/-- The writes of an error the context does not see (R206): "cmd_status <- code; res_data <- 0; res_len <- 0 and nothing else". -/
def afterStatelessError (code : BitVec 4) (s : State) : State :=
  { s with cmdStatus := code, resData := 0, resLen := 0 }

/-- The writes of a context error (R203, R204, R205(a)): cmd_status, err_code, err_byte, err_pos <- in_count, sm_state <- ERROR, and
nothing else. -/
def afterContextError (code : BitVec 4) (byte : Byte) (s : State) : State :=
  { s with cmdStatus := code, errCode := code, errByte := byte, errPos := s.inCount, smState := .error }

end Sys2Proof.Machine
end

