-- ==== Sys2Proof/Certificates/Slice0/Obligations.lean ====
section
/-! DEFINITION. The statements for the provers, from the numbered rules of spec/. Rules marked "decision" in the spec are the spec's
own choices and are stated as its rules; where a statement rests on a choice of this model its docstring names the log entry. -/

open Sys2Proof Sys2Proof.Machine

/-! ### Encoding -/

/-- Decode and encode agree (spec/30_encoding.md R70 to R81): every well-formed command survives, with every operand value. -/
def Obligations.DecodeOfEncodeIsTheInstruction : Prop :=
  ∀ i : Instr, i.wellFormed = true → decode (encode i) = .command i

/-- R81: a word decodes to a command exactly when it is that command's number and the operands are legal; every other word is
refused. -/
def Obligations.DecoderReadsExactlyTheSpecsWords : Prop :=
  ∀ (w : CommandWord) (i : Instr), decode w = .command i ↔ legalOperands i ∧ w.toNat = commandNumber i

/-- The example words of the command rules and of spec/95_test_vectors.md section 6 decode as written there. -/
def Obligations.SpecExampleWordsDecode : Prop :=
  decode 0x100000000018 = .command (.alphaEnc 24) ∧
  decode 0x20000000005E = .command (.alphaDec 0x5E) ∧
  decode 0x34004D616E20 = .command (.encGroup 4 0x4D616E20) ∧
  decode 0x31004D000000 = .command (.encGroup 1 0x4D000000) ∧
  decode 0x40396A716F5E = .command (.decGroup 0x39 0x6A 0x71 0x6F 0x5E) ∧
  decode 0x500000000000 = .command .smInit ∧
  decode 0x60000000007A = .command (.smFeed 0x7A) ∧
  decode 0x700000000000 = .command .smFinalize ∧
  decode 0x000000000000 = .illegal .reservedOpcode ∧
  decode 0x100000000055 = .illegal .operandOutOfRange ∧
  decode 0x33004D616E20 = .illegal .operandOutOfRange ∧
  decode 0x500000000001 = .illegal .reservedBits

/-- R72: a command with OP 0x0 or 0x8..0xF raises IllegalCommand and changes nothing else. -/
def Obligations.ReservedOpcodesAreRefused : Prop :=
  ∀ (s : State) (w : CommandWord), w.toNat / 2 ^ 44 = 0 ∨ 8 ≤ w.toNat / 2 ^ 44 →
    acceptCommand w s = .next (afterStatelessError 6 s)

/-- R206: a refused word, and an error of a stateless command, write cmd_status, clear res_data and res_len, and do nothing else. -/
def Obligations.StatelessErrorsWriteOnlyTheResult : Prop :=
  (∀ (s : State) (w : CommandWord), (∀ i, decode w ≠ .command i) → acceptCommand w s = .next (afterStatelessError 6 s)) ∧
  (∀ (s t : State) (i : Instr), i.stateless = true → exec i s = .next t → t.cmdStatus ≠ 0 →
    t = afterStatelessError t.cmdStatus s)

/-! ### Steps, reset, the read port -/

/-- A step runs the decoded command: it takes the event at the head of the port; for a word it is what the block does with that
word, and that is `exec` of the command the word decodes to (spec/00_scope.md R5; the port as a list is the model's choice,
notes/assumptions/1.md). -/
def Obligations.StepRunsTheDecodedCommand : Prop :=
  (∀ (s : State) (w : CommandWord) (rest : List HostEvent) (i : Instr),
    s.port = .command w :: rest → decode w = .command i → step s = exec i { s with port := rest }) ∧
  (∀ (s : State) (w : CommandWord) (rest : List HostEvent),
    s.port = .command w :: rest → step s = acceptCommand w { s with port := rest }) ∧
  (∀ (s : State) (rest : List HostEvent), s.port = .reset :: rest → step s = acceptEvent .reset { s with port := rest })

/-- With no host event waiting a step changes nothing (spec/00_scope.md R6: "no state changes between commands"; the idle step is the
model's choice, notes/assumptions/1.md). -/
def Obligations.IdleBlockHoldsItsState : Prop :=
  ∀ s : State, s.port = [] → step s = .next s

/-- R202, "an error never transfers control and never stops the block": every step, from every state, answers a next state. That a
step with no event on the port answers one too is the model's choice (notes/assumptions/1.md). -/
def Obligations.EveryStepAnswersANextState : Prop :=
  ∀ s : State, ∃ t, step s = .next t

/-- R230: reset, asserted between any two commands, sets every register to its reset value; in the state after reset every register
has it. -/
def Obligations.ResetSetsEveryRegister : Prop :=
  (∀ s : State, ∃ t, acceptEvent .reset s = .next t ∧ t.AtReset) ∧ State.reset.AtReset

/-- R232: reset and SM_INIT leave the same context; reset clears cmd_status, res_data and res_len, SM_INIT sets cmd_status to 0 and
keeps res_data and res_len. -/
def Obligations.ResetAndInitDifferOnlyInTheResult : Prop :=
  ∀ s : State, ∃ t, exec .smInit s = .next t ∧ SameContext (assertReset s) t ∧ SameResult s t ∧ t.cmdStatus = 0 ∧
    (assertReset s).cmdStatus = 0 ∧ (assertReset s).resData = 0 ∧ (assertReset s).resLen = 0

/-- R34 and R35: the read-port map, field by field, the reserved addresses 0x9..0xF and reserved bits reading 0, and all addresses
reading 0 after reset. -/
def Obligations.ReadPortMapsTheRegisters : Prop :=
  (∀ s : State,
    (readPort s 0x0).toNat = s.cmdStatus.toNat + s.errCode.toNat * 2 ^ 4 + (smStateCode s.smState).toNat * 2 ^ 8 +
      s.holdCount.toNat * 2 ^ 10 + s.resLen.toNat * 2 ^ 13 ∧
    (readPort s 0x1).toNat = s.resData.toNat % 2 ^ 32 ∧
    (readPort s 0x2).toNat = s.resData.toNat / 2 ^ 32 ∧
    (readPort s 0x3).toNat = s.hold[0].toNat * 2 ^ 24 + s.hold[1].toNat * 2 ^ 16 + s.hold[2].toNat * 2 ^ 8 + s.hold[3].toNat ∧
    (readPort s 0x4).toNat = s.hold[4].toNat ∧
    (readPort s 0x5).toNat = s.errByte.toNat ∧
    readPort s 0x6 = s.errPos ∧
    readPort s 0x7 = s.inCount ∧
    readPort s 0x8 = s.outCount ∧
    ∀ a : BitVec 4, 9 ≤ a.toNat → readPort s a = 0) ∧
  ∀ a : BitVec 4, readPort State.reset a = 0

/-! ### Invariants -/

/-- The invariants of R26, R27, R28, R30, R200 hold after reset. -/
def Obligations.InvariantHoldsAtReset : Prop := State.reset.Inv

/-- The invariants of R26, R27, R28, R30, R200 are kept by every step: a command word, a refused word, reset, or no event. -/
def Obligations.EveryStepKeepsTheInvariant : Prop :=
  ∀ s t : State, s.Inv → step s = .next t → t.Inv

/-! ### The alphabet -/

/-- R51 and R52: the contents of both ROMs, no entry at FWD addresses 85..127, and the two mutually inverse, which R52 marks as
derived from R51. -/
def Obligations.AlphabetRomContents : Prop :=
  (∀ a : Nat, a ≤ 84 → memRead .fwd a = some (.code (BitVec.ofNat 8 (a + 33)))) ∧
  (∀ a : Nat, 85 ≤ a → a ≤ 127 → memRead .fwd a = none) ∧
  (∀ c : Byte, isSymbol c → ∃ d : Digit, memRead .inv c.toNat = some (.inverse (some d)) ∧ d.val = c.toNat - 33) ∧
  (∀ c : Byte, ¬isSymbol c → memRead .inv c.toNat = some (.inverse none)) ∧
  (∀ d : Digit, romInv (romFwd d) = some d) ∧
  (∀ (c : Byte) (d : Digit), romInv c = some d → romFwd d = c)

/-- R101: ALPHA_ENC, from the word to the writes. -/
def Obligations.AlphaEncGivesTheSymbol : Prop :=
  (∀ (s : State) (v : BitVec 7), v.toNat ≤ 84 →
    exec (.alphaEnc v) s = .next { s with resData := BitVec.ofNat 40 (v.toNat + 33), resLen := 1, cmdStatus := 0 }) ∧
  (∀ (s : State) (w : CommandWord), w.toNat / 2 ^ 44 = 1 →
    acceptCommand w s = if w.toNat % 2 ^ 44 ≤ 84 then exec (.alphaEnc (BitVec.ofNat 7 (w.toNat % 2 ^ 44))) s
      else .next (afterStatelessError 6 s))

/-- R103: ALPHA_DEC, from the word to the writes; an Invalid byte is reported in cmd_status only. -/
def Obligations.AlphaDecGivesTheDigit : Prop :=
  (∀ (s : State) (c : Byte), isSymbol c →
    exec (.alphaDec c) s = .next { s with resData := BitVec.ofNat 40 (c.toNat - 33), resLen := 1, cmdStatus := 0 }) ∧
  (∀ (s : State) (c : Byte), ¬isSymbol c → exec (.alphaDec c) s = .next (afterStatelessError 1 s)) ∧
  (∀ (s : State) (w : CommandWord), w.toNat / 2 ^ 44 = 2 →
    acceptCommand w s = if w.toNat % 2 ^ 44 < 256 then exec (.alphaDec (BitVec.ofNat 8 (w.toNat % 2 ^ 44))) s
      else .next (afterStatelessError 6 s))

/-- R104(a), (b): ALPHA_DEC of the res_data of ALPHA_ENC v gives v, and ALPHA_ENC of the digit of a valid c gives c. -/
def Obligations.AlphabetCommandsAreInverse : Prop :=
  (∀ (s : State) (v : BitVec 7), v.toNat ≤ 84 →
    ∃ t u, exec (.alphaEnc v) s = .next t ∧ exec (.alphaDec (t.resData.setWidth 8)) t = .next u ∧
      u.resData = v.setWidth 40 ∧ u.resLen = 1 ∧ u.cmdStatus = 0) ∧
  (∀ (s : State) (c : Byte), isSymbol c →
    ∃ t u, exec (.alphaDec c) s = .next t ∧ exec (.alphaEnc (t.resData.setWidth 7)) t = .next u ∧
      u.resData = c.setWidth 40 ∧ u.resLen = 1 ∧ u.cmdStatus = 0)

/-! ### The group transforms -/

/-- R122 and R123: ENC_GROUP, from the word to the writes; the symbols are the codes of (V div 85^(4−j)) mod 85. -/
def Obligations.EncGroupGivesTheSymbols : Prop :=
  (∀ s : State, exec (.encGroup 4 0) s = .next { s with resData := 0x7A00000000, resLen := 1, cmdStatus := 0 }) ∧
  (∀ (s : State) (n : BitVec 4) (value : GroupValue), legalOperands (.encGroup n value) → ¬(n = 4 ∧ value = 0) →
    exec (.encGroup n value) s = .next { s with
      resData := BitVec.ofNat 40 (encodedNumber n.toNat value.toNat)
      resLen := BitVec.ofNat 3 (n.toNat + 1)
      cmdStatus := 0 }) ∧
  (∀ (s : State) (w : CommandWord), w.toNat / 2 ^ 44 = 3 →
    (w.toNat / 2 ^ 32 % 2 ^ 8 = 0 ∧ legalOperands (.encGroup (BitVec.ofNat 4 (w.toNat / 2 ^ 40)) (BitVec.ofNat 32 w.toNat)) →
      acceptCommand w s = exec (.encGroup (BitVec.ofNat 4 (w.toNat / 2 ^ 40)) (BitVec.ofNat 32 w.toNat)) s) ∧
    (¬(w.toNat / 2 ^ 32 % 2 ^ 8 = 0 ∧
        legalOperands (.encGroup (BitVec.ofNat 4 (w.toNat / 2 ^ 40)) (BitVec.ofNat 32 w.toNat))) →
      acceptCommand w s = .next (afterStatelessError 6 s)))

/-- R124: `z` stands among the result symbols of ENC_GROUP exactly for a full group of value 0. -/
def Obligations.ShorthandOnlyForAFullZeroGroup : Prop :=
  ∀ (s t : State) (n : BitVec 4) (value : GroupValue), legalOperands (.encGroup n value) →
    exec (.encGroup n value) s = .next t → (0x7A ∈ resultSymbols t ↔ n = 4 ∧ value = 0)

/-- R142: DEC_GROUP, from the word to the writes: InvalidCharacter before Overflow, both in the result registers only. -/
def Obligations.DecGroupGivesTheBytes : Prop :=
  (∀ (s : State) (c0 c1 c2 c3 c4 : Byte),
    ¬(isSymbol c0 ∧ isSymbol c1 ∧ isSymbol c2 ∧ isSymbol c3 ∧ isSymbol c4) →
    exec (.decGroup c0 c1 c2 c3 c4) s = .next (afterStatelessError 1 s)) ∧
  (∀ (s : State) (c0 c1 c2 c3 c4 : Byte), isSymbol c0 ∧ isSymbol c1 ∧ isSymbol c2 ∧ isSymbol c3 ∧ isSymbol c4 →
    0xFFFFFFFF < symbolsNumber c0 c1 c2 c3 c4 →
    exec (.decGroup c0 c1 c2 c3 c4) s = .next (afterStatelessError 2 s)) ∧
  (∀ (s : State) (c0 c1 c2 c3 c4 : Byte), isSymbol c0 ∧ isSymbol c1 ∧ isSymbol c2 ∧ isSymbol c3 ∧ isSymbol c4 →
    symbolsNumber c0 c1 c2 c3 c4 ≤ 0xFFFFFFFF →
    exec (.decGroup c0 c1 c2 c3 c4) s =
      .next { s with resData := BitVec.ofNat 40 (symbolsNumber c0 c1 c2 c3 c4), resLen := 4, cmdStatus := 0 }) ∧
  (∀ (s : State) (w : CommandWord), w.toNat / 2 ^ 44 = 4 →
    acceptCommand w s = if w.toNat / 2 ^ 40 % 2 ^ 4 = 0 then
        exec (.decGroup (BitVec.ofNat 8 (w.toNat / 2 ^ 32)) (BitVec.ofNat 8 (w.toNat / 2 ^ 24))
          (BitVec.ofNat 8 (w.toNat / 2 ^ 16)) (BitVec.ofNat 8 (w.toNat / 2 ^ 8)) (BitVec.ofNat 8 w.toNat)) s
      else .next (afterStatelessError 6 s))

/-- R143: GroupDecode overflows exactly when the digits' number exceeds 0xFFFFFFFF, and otherwise gives its big-endian bytes. -/
def Obligations.GroupDecodeOverflowsExactlyAboveTheRange : Prop :=
  ∀ d0 d1 d2 d3 d4 : Digit,
    (groupDecode d0 d1 d2 d3 d4 = none ↔ 0xFFFFFFFF < groupNumber d0 d1 d2 d3 d4) ∧
    (groupNumber d0 d1 d2 d3 d4 ≤ 0xFFFFFFFF →
      (groupDecode d0 d1 d2 d3 d4).map groupList = some (bigEndian (groupNumber d0 d1 d2 d3 d4)))

/-- R145: what the first digit alone decides about overflow. -/
def Obligations.FirstSymbolBoundsOverflow : Prop :=
  ∀ d0 d1 d2 d3 d4 : Digit,
    (83 ≤ d0.val → groupDecode d0 d1 d2 d3 d4 = none) ∧
    (d0.val ≤ 81 → groupDecode d0 d1 d2 d3 d4 ≠ none) ∧
    (d0.val = 82 → (groupDecode d0 d1 d2 d3 d4 = none ↔
      symbolsNumber 0x73 0x38 0x57 0x2D 0x21 < groupNumber d0 d1 d2 d3 d4))

/-- R144: DEC_GROUP of the five symbols ENC_GROUP gives for a nonzero full group returns the group. -/
def Obligations.FullGroupRoundTrip : Prop :=
  ∀ (s : State) (value : GroupValue), value ≠ 0 →
    ∃ t u, exec (.encGroup 4 value) s = .next t ∧
      exec (.decGroup (symbolAt t.resData 0) (symbolAt t.resData 1) (symbolAt t.resData 2) (symbolAt t.resData 3)
        (symbolAt t.resData 4)) t = .next u ∧
      u.resData = value.setWidth 40 ∧ u.resLen = 4 ∧ u.cmdStatus = 0

/-- R179: FlushShort of the n + 1 symbols of a short group of n bytes returns exactly those bytes and never overflows. -/
def Obligations.ShortGroupRoundTrip : Prop :=
  ∀ (n : Nat) (value : GroupValue), 1 ≤ n → n ≤ 3 → value.toNat % 2 ^ (8 * (4 - n)) = 0 →
    flushShort
        #v[(groupEncode n value).getD 0 0, (groupEncode n value).getD 1 0, (groupEncode n value).getD 2 0,
          (groupEncode n value).getD 3 0, 0]
        (BitVec.ofNat 3 (n + 1)) = some ((bigEndian value.toNat).take n)

/-! ### The streaming decoder -/

/-- R161: SM_INIT, from the word to the writes, in every state; the only command that leaves ERROR. -/
def Obligations.SmInitCreatesTheContext : Prop :=
  (∀ s : State, exec .smInit s = .next { s with
    smState := .empty
    hold := #v[0, 0, 0, 0, 0]
    holdCount := 0
    errCode := 0
    errByte := 0
    errPos := 0
    inCount := 0
    outCount := 0
    outStream := []
    cmdStatus := 0 }) ∧
  (∀ (s t : State) (i : Instr), s.smState = .error → exec i s = .next t → t.smState ≠ .error → i = .smInit) ∧
  (∀ (s : State) (w : CommandWord), w.toNat / 2 ^ 44 = 5 →
    acceptCommand w s = if w.toNat % 2 ^ 44 = 0 then exec .smInit s
      else .next (afterStatelessError 6 s))

/-- R163: every input byte falls in exactly one class. -/
def Obligations.EveryByteFallsInOneClass : Prop :=
  ∀ c : Byte,
    (c = 0x20 ∨ c = 0x0A ∨ c = 0x0D ∨ c = 0x09 → charClass c = .whitespace) ∧
    (c = 0x7A → charClass c = .zero) ∧
    (33 ≤ c.toNat ∧ c.toNat ≤ 117 → ∃ d : Digit, charClass c = .symbol d ∧ d.val = c.toNat - 33) ∧
    (c.toNat ≤ 0x08 ∨ c.toNat = 0x0B ∨ c.toNat = 0x0C ∨ (0x0E ≤ c.toNat ∧ c.toNat ≤ 0x1F) ∨
      (0x76 ≤ c.toNat ∧ c.toNat ≤ 0x79) ∨ 0x7B ≤ c.toNat → charClass c = .other)

/-- R165: FeedChar, case by case, for a hold buffer whose pending slots hold symbols. -/
def Obligations.FeedCharFollowsTheByteClass : Prop :=
  ∀ (hold : Hold) (k : BitVec 3) (c : Byte),
    (isWhitespace c → feedChar hold k c = .accepted hold k []) ∧
    (c = 0x7A → k = 0 → feedChar hold k c = .accepted hold 0 [0x00, 0x00, 0x00, 0x00]) ∧
    (c = 0x7A → k ≠ 0 → feedChar hold k c = .failed .invalidCharacter) ∧
    (isOther c → feedChar hold k c = .failed .invalidCharacter) ∧
    (isSymbol c → k.toNat < 4 → feedChar hold k c = .accepted (hold.setIfInBounds k.toNat c) (k + 1) []) ∧
    (isSymbol c → k = 4 → isSymbol hold[0] → isSymbol hold[1] → isSymbol hold[2] → isSymbol hold[3] →
      feedChar hold k c =
        if symbolsNumber hold[0] hold[1] hold[2] hold[3] c ≤ 0xFFFFFFFF then
          .accepted #v[0, 0, 0, 0, 0] 0 (bigEndian (symbolsNumber hold[0] hold[1] hold[2] hold[3] c))
        else .failed .overflow)

/-- R166: SM_FEED, from the word to the writes, over FeedChar. -/
def Obligations.SmFeedAppliesFeedChar : Prop :=
  (∀ (s : State) (c : Byte), s.smState = .error → exec (.smFeed c) s = .next { s with cmdStatus := 5 }) ∧
  (∀ (s : State) (c : Byte), s.smState = .finished → exec (.smFeed c) s = .next (afterContextError 5 c s)) ∧
  (∀ (s : State) (c : Byte) (e : Status), s.accepting → feedChar s.hold s.holdCount c = .failed e →
    exec (.smFeed c) s = .next (afterContextError (statusCode e) c s)) ∧
  (∀ (s : State) (c : Byte) (hold : Hold) (k : BitVec 3) (bytes : List Byte), s.accepting →
    feedChar s.hold s.holdCount c = .accepted hold k bytes →
    exec (.smFeed c) s = .next { s with
      hold := hold
      holdCount := k
      outStream := s.outStream ++ bytes
      outCount := s.outCount + BitVec.ofNat 32 bytes.length
      inCount := s.inCount + 1
      smState := if k = 0 then .empty else .accumulating
      cmdStatus := 0 }) ∧
  (∀ (s : State) (w : CommandWord), w.toNat / 2 ^ 44 = 6 →
    acceptCommand w s = if w.toNat % 2 ^ 44 < 256 then exec (.smFeed (BitVec.ofNat 8 (w.toNat % 2 ^ 44))) s
      else .next (afterStatelessError 6 s))

/-- R167: a whitespace byte is skipped: in an accepting context (R26(b) as premise) only in_count and cmd_status change. -/
def Obligations.WhitespaceIsSkipped : Prop :=
  ∀ (s : State) (c : Byte), s.accepting → (s.smState = .empty ↔ s.holdCount = 0) → isWhitespace c →
    exec (.smFeed c) s = .next { s with inCount := s.inCount + 1, cmdStatus := 0 }

/-- R168: `z` at a group boundary emits four zero bytes; after 1 to 4 pending symbols it is InvalidCharacter. -/
def Obligations.ShorthandOnlyAtAGroupBoundary : Prop :=
  (∀ s : State, s.accepting → s.holdCount = 0 →
    exec (.smFeed 0x7A) s = .next { s with
      outStream := s.outStream ++ [0x00, 0x00, 0x00, 0x00]
      outCount := s.outCount + 4
      inCount := s.inCount + 1
      smState := .empty
      cmdStatus := 0 }) ∧
  (∀ s : State, s.accepting → s.holdCount ≠ 0 → exec (.smFeed 0x7A) s = .next (afterContextError 1 0x7A s))

/-- R203: InvalidCharacter raised by SM_FEED, for a byte of class other and for a mid-group `z`: exactly the listed writes. -/
def Obligations.InvalidCharacterIsRecorded : Prop :=
  ∀ (s : State) (c : Byte), s.accepting → isOther c ∨ (c = 0x7A ∧ s.holdCount ≠ 0) →
    exec (.smFeed c) s = .next { s with cmdStatus := 1, errCode := 1, errByte := c, errPos := s.inCount, smState := .error }

/-- R170: a symbol is accumulated into the hold buffer, and the fifth flushes the group in the same command, most significant byte
first; a group that overflows emits nothing (R204). -/
def Obligations.FifthSymbolFlushesTheGroup : Prop :=
  (∀ (s : State) (c : Byte), s.accepting → s.holdCount.toNat < 4 → isSymbol c →
    exec (.smFeed c) s = .next { s with
      hold := s.hold.setIfInBounds s.holdCount.toNat c
      holdCount := s.holdCount + 1
      inCount := s.inCount + 1
      smState := .accumulating
      cmdStatus := 0 }) ∧
  (∀ (s : State) (c : Byte), s.accepting → s.holdCount = 4 → s.heldAreSymbols → isSymbol c →
    exec (.smFeed c) s = .next (
      if symbolsNumber s.hold[0] s.hold[1] s.hold[2] s.hold[3] c ≤ 0xFFFFFFFF then
        { s with
          hold := #v[0, 0, 0, 0, 0]
          holdCount := 0
          outStream := s.outStream ++ bigEndian (symbolsNumber s.hold[0] s.hold[1] s.hold[2] s.hold[3] c)
          outCount := s.outCount + 4
          inCount := s.inCount + 1
          smState := .empty
          cmdStatus := 0 }
      else afterContextError 2 c s))

/-- R176: SM_FINALIZE, from the word to the writes, with the padded group of R175 written out. -/
def Obligations.SmFinalizeFlushesTheShortGroup : Prop :=
  (∀ s : State, s.smState = .error → exec .smFinalize s = .next { s with cmdStatus := 5 }) ∧
  (∀ s : State, s.smState = .finished → exec .smFinalize s = .next (afterContextError 5 0x00 s)) ∧
  (∀ s : State, s.accepting → s.holdCount = 0 → exec .smFinalize s = .next { s with smState := .finished, cmdStatus := 0 }) ∧
  (∀ s : State, s.accepting → s.holdCount ≠ 0 → s.holdCount.toNat ≤ 4 → s.heldAreSymbols →
    exec .smFinalize s = .next (
      if paddedNumber s.holdCount.toNat s.hold ≤ 0xFFFFFFFF then
        { s with
          hold := #v[0, 0, 0, 0, 0]
          holdCount := 0
          outStream := s.outStream ++ (bigEndian (paddedNumber s.holdCount.toNat s.hold)).take (s.holdCount.toNat - 1)
          outCount := s.outCount + BitVec.ofNat 32 (s.holdCount.toNat - 1)
          smState := .finished
          cmdStatus := 0 }
      else afterContextError 2 0x00 s)) ∧
  (∀ (s : State) (w : CommandWord), w.toNat / 2 ^ 44 = 7 →
    acceptCommand w s = if w.toNat % 2 ^ 44 = 0 then exec .smFinalize s
      else .next (afterStatelessError 6 s))

/-- R178: the largest number of the k pending digits that SM_FINALIZE accepts; above it, Overflow. -/
def Obligations.ShortGroupOverflowThresholds : Prop :=
  ∀ s t : State, s.accepting → s.heldAreSymbols → exec .smFinalize s = .next t →
    (s.holdCount = 1 → (t.cmdStatus = 2 ↔ 81 < s.hold[0].toNat - 33)) ∧
    (s.holdCount = 2 → (t.cmdStatus = 2 ↔ 6992 < (s.hold[0].toNat - 33) * 85 + (s.hold[1].toNat - 33))) ∧
    (s.holdCount = 3 → (t.cmdStatus = 2 ↔
      594458 < ((s.hold[0].toNat - 33) * 85 + (s.hold[1].toNat - 33)) * 85 + (s.hold[2].toNat - 33))) ∧
    (s.holdCount = 4 → (t.cmdStatus = 2 ↔
      50529026 < (((s.hold[0].toNat - 33) * 85 + (s.hold[1].toNat - 33)) * 85 + (s.hold[2].toNat - 33)) * 85 +
        (s.hold[3].toNat - 33)))

/-- R177: one pending symbol at end of input: `!`..`r` emit nothing and succeed, `s`, `t`, `u` raise Overflow. -/
def Obligations.LonePendingSymbolEmitsNothing : Prop :=
  ∀ s : State, s.accepting → s.holdCount = 1 → isSymbol s.hold[0] →
    exec .smFinalize s = .next (
      if s.hold[0].toNat ≤ 0x72 then { s with hold := #v[0, 0, 0, 0, 0], holdCount := 0, smState := .finished, cmdStatus := 0 }
      else afterContextError 2 0x00 s)

/-- R205: SequenceError in FINISHED is recorded; in ERROR it is reported in cmd_status and nothing else. -/
def Obligations.SequenceErrorAfterTheEnd : Prop :=
  (∀ (s : State) (c : Byte), s.smState = .finished →
    exec (.smFeed c) s = .next { s with cmdStatus := 5, errCode := 5, smState := .error, errPos := s.inCount, errByte := c }) ∧
  (∀ s : State, s.smState = .finished →
    exec .smFinalize s = .next { s with cmdStatus := 5, errCode := 5, smState := .error, errPos := s.inCount, errByte := 0x00 }) ∧
  (∀ (s : State) (c : Byte), s.smState = .error → exec (.smFeed c) s = .next { s with cmdStatus := 5 }) ∧
  (∀ s : State, s.smState = .error → exec .smFinalize s = .next { s with cmdStatus := 5 })

/-! ### Rules of the whole machine -/

/-- R180(c): only SM_INIT and reset bring a context in ERROR or FINISHED back to accepting input, and only they leave ERROR (a
FINISHED context can still go to ERROR, R180(a)). -/
def Obligations.OnlyInitAndResetReviveTheContext : Prop :=
  ∀ (s t : State) (e : HostEvent), acceptEvent e s = .next t →
    (s.smState = .error ∨ s.smState = .finished) ∧ t.accepting ∨ (s.smState = .error ∧ t.smState ≠ .error) →
    e = .reset ∨ ∃ w, e = .command w ∧ decode w = .command .smInit

/-- R28: the error record keeps the first context error. Once set, no word but SM_INIT's changes it; an error of SM_FEED or
SM_FINALIZE with none recorded is recorded; a stateless command, a refused word and a command that succeeds (SM_INIT apart) do
not write it. The invariant is the premise where a recorded error must mean ERROR. -/
def Obligations.FirstContextErrorIsKept : Prop :=
  (∀ (s t : State) (w : CommandWord), s.Inv → s.errCode ≠ 0 → decode w ≠ .command .smInit → acceptCommand w s = .next t →
    SameErrorRecord s t) ∧
  (∀ (s t : State) (c : Byte), s.Inv → s.errCode = 0 → exec (.smFeed c) s = .next t → t.cmdStatus ≠ 0 →
    t.errCode = t.cmdStatus ∧ t.errByte = c ∧ t.errPos = s.inCount ∧ t.smState = .error) ∧
  (∀ s t : State, s.Inv → s.errCode = 0 → exec .smFinalize s = .next t → t.cmdStatus ≠ 0 →
    t.errCode = t.cmdStatus ∧ t.errByte = 0x00 ∧ t.errPos = s.inCount ∧ t.smState = .error) ∧
  (∀ (s t : State) (i : Instr), i ≠ .smInit → exec i s = .next t → i.stateless = true ∨ t.cmdStatus = 0 →
    SameErrorRecord s t) ∧
  (∀ (s t : State) (w : CommandWord), (∀ i, decode w ≠ .command i) → acceptCommand w s = .next t → SameErrorRecord s t)

/-- R39: the stateless commands leave the whole context as it is, and what they write does not depend on the state. -/
def Obligations.StatelessCommandsKeepTheContext : Prop :=
  ∀ (i : Instr) (s s' : State), i.stateless = true →
    ∃ t t', exec i s = .next t ∧ exec i s' = .next t' ∧ SameContext s t ∧
      t'.cmdStatus = t.cmdStatus ∧ SameResult t t'

/-- R24, R242: SM_INIT, SM_FEED and SM_FINALIZE leave res_data and res_len as they are. The port is the model's own field, and that
they leave it as it is too is the model's choice (notes/assumptions/1.md). -/
def Obligations.StreamCommandsKeepTheResult : Prop :=
  ∀ (i : Instr) (s : State), i.stateless = false → ∃ t, exec i s = .next t ∧ SameResult s t ∧ t.port = s.port

/-- R23: every command writes cmd_status: what it was before makes no difference to any command or refused word. -/
def Obligations.CommandStatusIsNotSticky : Prop :=
  ∀ (s : State) (x : BitVec 4),
    (∀ i : Instr, exec i { s with cmdStatus := x } = exec i s) ∧
    (∀ w : CommandWord, acceptCommand w { s with cmdStatus := x } = acceptCommand w s)

/-- R31: no command reads cmd_status, res_data or res_len: from equal contexts every command leaves equal contexts and the same
cmd_status, and the stateless ones the same result. -/
def Obligations.NoCommandReadsTheResultRegisters : Prop :=
  ∀ (i : Instr) (s s' : State), SameContext s s' →
    ∃ t t', exec i s = .next t ∧ exec i s' = .next t' ∧ SameContext t t' ∧ t'.cmdStatus = t.cmdStatus ∧
      (i.stateless = true → SameResult t t')

/-- R209: which error kinds each command can report, and that it can; every OP has a refused word. -/
def Obligations.ErrorKindsPerCommand : Prop :=
  (∀ (s t : State) (i : Instr), i.wellFormed = true → exec i s = .next t →
    match i with
    | .alphaEnc _ => t.cmdStatus = 0
    | .alphaDec _ => t.cmdStatus = 0 ∨ t.cmdStatus = 1
    | .encGroup _ _ => t.cmdStatus = 0
    | .decGroup _ _ _ _ _ => t.cmdStatus = 0 ∨ t.cmdStatus = 1 ∨ t.cmdStatus = 2
    | .smInit => t.cmdStatus = 0
    | .smFeed _ => t.cmdStatus = 0 ∨ t.cmdStatus = 1 ∨ t.cmdStatus = 2 ∨ t.cmdStatus = 5
    | .smFinalize => t.cmdStatus = 0 ∨ t.cmdStatus = 2 ∨ t.cmdStatus = 5) ∧
  (∃ (s t : State) (c : Byte), exec (.alphaDec c) s = .next t ∧ t.cmdStatus = 1) ∧
  (∀ e : BitVec 4, e = 1 ∨ e = 2 →
    ∃ (s t : State) (c0 c1 c2 c3 c4 : Byte), exec (.decGroup c0 c1 c2 c3 c4) s = .next t ∧ t.cmdStatus = e) ∧
  (∀ e : BitVec 4, e = 1 ∨ e = 2 ∨ e = 5 → ∃ (s t : State) (c : Byte), s.Inv ∧ exec (.smFeed c) s = .next t ∧ t.cmdStatus = e) ∧
  (∀ e : BitVec 4, e = 2 ∨ e = 5 → ∃ s t : State, s.Inv ∧ exec .smFinalize s = .next t ∧ t.cmdStatus = e) ∧
  (∀ op : Nat, 1 ≤ op → op ≤ 7 → ∃ w : CommandWord, w.toNat / 2 ^ 44 = op ∧ ∀ i, decode w ≠ .command i)

/-- R57: SM_FEED appends nothing or exactly four bytes, SM_FINALIZE at most three (R26(a) as premise), the stateless commands
nothing, and a command that reports an error nothing; what was emitted before stays (R207). -/
def Obligations.OutputPerCommand : Prop :=
  ∀ (s t : State) (i : Instr), s.holdCount.toNat ≤ 4 → exec i s = .next t → i ≠ .smInit →
    ∃ bytes : List Byte, t.outStream = s.outStream ++ bytes ∧ t.outCount = s.outCount + BitVec.ofNat 32 bytes.length ∧
      (t.cmdStatus ≠ 0 → bytes = []) ∧
      (i.stateless = true → bytes = []) ∧
      (∀ c, i = .smFeed c → bytes.length = 0 ∨ bytes.length = 4) ∧
      (i = .smFinalize → bytes.length ≤ 3)

/-- R29: in_count counts, modulo 2^32, the SM_FEED commands since SM_INIT or reset that complete without error, whatever the
character; an SM_FEED that raises an error does not add, and after InvalidCharacter or Overflow err_pos = in_count; no other
command and no refused word changes it. -/
def Obligations.InputCountCountsConsumedCharacters : Prop :=
  (∀ (s t : State) (c : Byte), exec (.smFeed c) s = .next t →
    (t.cmdStatus = 0 → t.inCount.toNat = (s.inCount.toNat + 1) % 2 ^ 32) ∧
    (t.cmdStatus ≠ 0 → t.inCount = s.inCount) ∧
    (t.cmdStatus = 1 ∨ t.cmdStatus = 2 → t.errPos = t.inCount)) ∧
  (∀ s t : State, exec .smInit s = .next t → t.inCount = 0) ∧
  (∀ s t : State, acceptEvent .reset s = .next t → t.inCount = 0) ∧
  (∀ (s t : State) (i : Instr), exec i s = .next t → i ≠ .smInit → (∀ c, i ≠ .smFeed c) → t.inCount = s.inCount) ∧
  (∀ (s t : State) (w : CommandWord), (∀ i, decode w ≠ .command i) → acceptCommand w s = .next t → t.inCount = s.inCount)

/-! ### Host compositions -/

/-- R86, R126: the host that runs ENCODE and collects the result symbols gets `Encode(m)`; the context is untouched. -/
def Obligations.EncodeCommandsGiveTheEncodedText : Prop :=
  ∀ (message : List Byte) (s : State),
    ∃ t, collectSymbols (encodeProgram message) s = some (encodeMessage message, t) ∧ SameContext s t

/-- R127: the length of an encoded message of N = 4q + r bytes with Z0 zero groups, and its bound. -/
def Obligations.EncodedLength : Prop :=
  ∀ message : List Byte,
    (encodeMessage message).length + 4 * (messageGroups message).count [0x00, 0x00, 0x00, 0x00] =
      5 * (message.length / 4) + (if 0 < message.length % 4 then message.length % 4 + 1 else 0) ∧
    (encodeMessage message).length ≤ 5 * ((message.length + 3) / 4)

/-- R187: for every byte sequence B and from every state, Decode(Encode(B)) = B with no error. -/
def Obligations.DecodeOfEncodedMessageIsTheMessage : Prop :=
  ∀ (message : List Byte) (s : State), decodeText (encodeMessage message) s = .bytes message

/-- R188: texts that differ only in whitespace have the same decode result, or the same kind of error at the same byte. -/
def Obligations.WhitespaceDoesNotChangeTheResult : Prop :=
  ∀ (t t' : List Byte) (s : State),
    t.filter (fun c => decide (¬isWhitespace c)) = t'.filter (fun c => decide (¬isWhitespace c)) →
    (∃ out, decodeText t s = .bytes out ∧ decodeText t' s = .bytes out) ∨
    (∃ code pos pos' byte, decodeText t s = .failed code pos byte ∧ decodeText t' s = .failed code pos' byte)

/-- R186, the source's streaming equivalence. A stream is SM_INIT, the chunks fed one after another, SM_FINALIZE, and every one of
these completes. However a text is split into chunks, the registers then hold what the one-shot `Decode` of the whole text
returns, its bytes or its first error; and if the text is `Encode(B)`, out_stream is B and no error is recorded. -/
def Obligations.ChunkedFeedingIsWholeFeeding : Prop :=
  (∀ (chunks : List (List Byte)) (s : State),
    ∃ t u v, exec .smInit s = .next t ∧ feedChunks chunks t = .next u ∧ exec .smFinalize u = .next v ∧
      (v.errCode = 0 → decodeText chunks.flatten s = .bytes v.outStream) ∧
      (v.errCode ≠ 0 → decodeText chunks.flatten s = .failed v.errCode v.errPos v.errByte)) ∧
  (∀ (message : List Byte) (chunks : List (List Byte)) (s : State), chunks.flatten = encodeMessage message →
    ∃ t u v, exec .smInit s = .next t ∧ feedChunks chunks t = .next u ∧ exec .smFinalize u = .next v ∧
      v.outStream = message ∧ v.errCode = 0 ∧ v.cmdStatus = 0 ∧ v.smState = .finished)

/-- R189: a decode yields at most 4 bytes per input byte, and at most 4·floor(L/5) + 3 for a text without `z`. -/
def Obligations.DecodedLengthIsBounded : Prop :=
  ∀ (text out : List Byte) (s : State), decodeText text s = .bytes out →
    out.length ≤ 4 * text.length ∧ (0x7A ∉ text → out.length ≤ 4 * (text.length / 5) + 3)

/-- R185 with R241: the words of DECODE "t" on the command port, one step each, leave in the registers what `Decode(t)` returns: the
stream if no error is recorded, else the first error. -/
def Obligations.DecodeRunsOnTheCommandPort : Prop :=
  ∀ (text : List Byte) (s : State), s.port = [] →
    ∃ t, Host.Core.run Sys2Proof.core (text.length + 2) (issueAll (decodeProgram text) s) = .next t ∧ t.port = [] ∧
      (t.errCode = 0 → decodeText text s = .bytes t.outStream) ∧
      (t.errCode ≠ 0 → decodeText text s = .failed t.errCode t.errPos t.errByte)

/-- R83: a command word is written as 12 hex digits, and read as hex digits they give the word back. -/
def Obligations.WordTextIsTwelveHexDigits : Prop :=
  ∀ w : CommandWord, (wordText w).length = 12 ∧ scanDigits 16 hexValue (wordText w) 0 = (w.toNat, [])
end

