-- ==== Sys2Proof/Laws/Decode.lean ====
section
/-! SUPPORT. The fields of a packed command word, and the fields of a word as numbers. -/

namespace Sys2Proof

/-- Concatenation as arithmetic (R9). -/
theorem toNat_append_eq {m n : Nat} (a : BitVec m) (b : BitVec n) : (a ++ b).toNat = a.toNat * 2 ^ n + b.toNat := by
  rw [BitVec.toNat_append, ← Nat.shiftLeft_add_eq_or_of_lt b.isLt, Nat.shiftLeft_eq]

theorem opField_toNat (w : CommandWord) : (opField w).toNat = w.toNat / 2 ^ 44 := by
  have := w.isLt
  simp only [opField, BitVec.extractLsb'_toNat, Nat.shiftRight_eq_div_pow]
  omega

theorem argField_toNat (w : CommandWord) : (argField w).toNat = w.toNat / 2 ^ 40 % 2 ^ 4 := by
  simp only [argField, BitVec.extractLsb'_toNat, Nat.shiftRight_eq_div_pow]

theorem dataField_toNat (w : CommandWord) : (dataField w).toNat = w.toNat % 2 ^ 40 := by
  simp only [dataField, BitVec.extractLsb'_toNat, Nat.shiftRight_eq_div_pow, Nat.pow_zero, Nat.div_one]

/-- A packed word as a number (R70). -/
theorem packCommand_toNat (op arg : BitVec 4) (d : BitVec 40) :
    (packCommand op arg d).toNat = op.toNat * 2 ^ 44 + arg.toNat * 2 ^ 40 + d.toNat := by
  simp only [packCommand, toNat_append_eq]
  omega

@[simp] theorem opField_packCommand (op arg : BitVec 4) (d : BitVec 40) : opField (packCommand op arg d) = op := by
  apply BitVec.eq_of_toNat_eq
  have := arg.isLt
  have := d.isLt
  rw [opField_toNat, packCommand_toNat]
  omega

@[simp] theorem argField_packCommand (op arg : BitVec 4) (d : BitVec 40) : argField (packCommand op arg d) = arg := by
  apply BitVec.eq_of_toNat_eq
  have := arg.isLt
  have := d.isLt
  rw [argField_toNat, packCommand_toNat]
  omega

@[simp] theorem dataField_packCommand (op arg : BitVec 4) (d : BitVec 40) : dataField (packCommand op arg d) = d := by
  apply BitVec.eq_of_toNat_eq
  have := d.isLt
  rw [dataField_toNat, packCommand_toNat]
  omega

/-- A word is its three fields packed (R70). -/
theorem packCommand_fields (w : CommandWord) : packCommand (opField w) (argField w) (dataField w) = w := by
  apply BitVec.eq_of_toNat_eq
  have := w.isLt
  rw [packCommand_toNat, opField_toNat, argField_toNat, dataField_toNat]
  omega

/-- `wellFormed` of ENC_GROUP operands, in the words of R81. -/
theorem groupOperandLegal_iff (n : BitVec 4) (value : GroupValue) :
    Instr.groupOperandLegal n value = true ↔ 1 ≤ n.toNat ∧ n.toNat ≤ 4 ∧ paddingIsZero n.toNat value.toNat := by
  simp only [Instr.groupOperandLegal, decide_eq_true_eq, paddingIsZero]
  constructor
  · rintro ⟨h1, h4, hv⟩
    refine ⟨h1, h4, ?_, ?_, ?_⟩ <;> intro h <;> rw [h] at hv <;> exact hv
  · rintro ⟨h1, h4, h3, h2, h1'⟩
    refine ⟨h1, h4, ?_⟩
    have h : n.toNat = 1 ∨ n.toNat = 2 ∨ n.toNat = 3 ∨ n.toNat = 4 := by omega
    rcases h with h | h | h | h
    · rw [h]; exact h1' h
    · rw [h]; exact h2 h
    · rw [h]; exact h3 h
    · rw [h]; simp [Nat.mod_one]

end Sys2Proof
end

