-- ==== Sys2Proof/Laws/Rom.lean ====
section
/-! SUPPORT. What the alphabet ROM and the byte classes answer. -/

namespace Sys2Proof.Machine

/-- ROM_INV on a symbol's code (R52). -/
theorem romInv_of_symbol {c : Byte} (h : isSymbol c) : romInv c = some ⟨c.toNat - 33, by omega⟩ := by
  simp [romInv, Config.alphabetFirst, Config.alphabetLast, h.1, h.2]

/-- ROM_INV off the alphabet (R52). -/
theorem romInv_of_not_symbol {c : Byte} (h : ¬isSymbol c) : romInv c = none := by
  unfold romInv
  rw [dif_neg h]

/-- The code ROM_FWD gives, as a number (R51). -/
theorem romFwd_toNat (d : Digit) : (romFwd d).toNat = d.val + 33 := by
  simp only [romFwd, Config.alphabetFirst, BitVec.toNat_ofNat]
  omega

/-- ROM_FWD gives symbols only. -/
theorem romFwd_isSymbol (d : Digit) : isSymbol (romFwd d) := by
  have := romFwd_toNat d
  unfold isSymbol; omega

/-- The digit of a held symbol. -/
theorem heldDigit_of_symbol {c : Byte} (h : isSymbol c) : (heldDigit c).val = c.toNat - 33 := by
  simp [heldDigit, romInv_of_symbol h]

/-- Membership in the whitespace set is R163's class. -/
theorem mem_whitespace (c : Byte) : c ∈ Config.whitespace ↔ isWhitespace c := by
  simp [Config.whitespace, isWhitespace]

/-- Whitespace is no symbol: the classes of R163 are disjoint. -/
theorem isWhitespace_not_symbol {c : Byte} (h : isWhitespace c) : ¬isSymbol c := by
  rcases h with h | h | h | h <;> subst h <;> decide

theorem charClass_whitespace {c : Byte} (h : isWhitespace c) : charClass c = .whitespace := by
  rw [charClass, if_pos ((mem_whitespace c).2 h)]

theorem charClass_zero : charClass 0x7A = .zero := by decide

theorem charClass_symbol {c : Byte} (h : isSymbol c) : charClass c = .symbol ⟨c.toNat - 33, by omega⟩ := by
  have hw : ¬c ∈ Config.whitespace := fun hm => isWhitespace_not_symbol ((mem_whitespace c).1 hm) h
  have hz : c ≠ Config.zeroShorthand := by
    intro hc; subst hc; revert h; decide
  rw [charClass, if_neg hw, if_neg hz, romInv_of_symbol h]

theorem charClass_other {c : Byte} (h : isOther c) : charClass c = .other := by
  have hw : ¬c ∈ Config.whitespace := fun hm => h.1 ((mem_whitespace c).1 hm)
  rw [charClass, if_neg hw, if_neg h.2.1, romInv_of_not_symbol h.2.2]

/-- Every byte falls in one class (R163). -/
theorem byte_class (c : Byte) : isWhitespace c ∨ c = 0x7A ∨ isSymbol c ∨ isOther c := by
  by_cases hw : isWhitespace c
  · exact .inl hw
  by_cases hz : c = 0x7A
  · exact .inr (.inl hz)
  by_cases hs : isSymbol c
  · exact .inr (.inr (.inl hs))
  · exact .inr (.inr (.inr ⟨hw, hz, hs⟩))

end Sys2Proof.Machine
end

