-- ==== Sys2Proof/Laws/GroupCodec.lean ====
section
/-! SUPPORT. The group transforms unfolded once into arithmetic: digits by division, values by sums, bytes by division. -/

namespace Sys2Proof.Machine

/-- The five digits of a group value, most significant first (R121, "equivalently d[i] = (V div 85^(4−i)) mod 85"). -/
theorem groupDigits_eq (value : GroupValue) :
    groupDigits value = [lastDigit (value.toNat / 85 / 85 / 85 / 85), lastDigit (value.toNat / 85 / 85 / 85),
      lastDigit (value.toNat / 85 / 85), lastDigit (value.toNat / 85), lastDigit value.toNat] := rfl

theorem lastDigit_val (x : Nat) : (lastDigit x).val = x % 85 := rfl

/-- The symbols of a group that is not the all-zero full group (R121). -/
theorem groupEncode_of_digits {n : Nat} {value : GroupValue} (h : ¬(n = 4 ∧ value = 0)) :
    groupEncode n value = ((groupDigits value).map romFwd).take (n + 1) := by
  rw [groupEncode, if_neg h]

/-- The all-zero full group (R121). -/
theorem groupEncode_zero : groupEncode 4 0 = [0x7A] := by decide

/-- The value after the first four digits (R141). -/
theorem accumulate_four (d0 d1 d2 d3 : Digit) :
    accumulate [d0, d1, d2, d3] = ((d0.val * 85 + d1.val) * 85 + d2.val) * 85 + d3.val := by
  simp [accumulate, Config.alphabetSize]

/-- GroupDecode when both tests pass (R141). -/
theorem groupDecode_accepts {d0 d1 d2 d3 d4 : Digit} (h1 : accumulate [d0, d1, d2, d3] ≤ 50529027)
    (h2 : accumulate [d0, d1, d2, d3] * 85 ≤ 0xFFFFFFFF - d4.val) :
    groupDecode d0 d1 d2 d3 d4 = some (groupBytesOf (accumulate [d0, d1, d2, d3] * 85 + d4.val)) := by
  unfold groupDecode
  rw [if_neg (Nat.not_lt.2 h1), if_neg (Nat.not_lt.2 h2)]

/-- GroupDecode when the first test fails (R141). -/
theorem groupDecode_first_test {d0 d1 d2 d3 d4 : Digit} (h : 50529027 < accumulate [d0, d1, d2, d3]) :
    groupDecode d0 d1 d2 d3 d4 = none := by
  unfold groupDecode
  rw [if_pos h]

/-- GroupDecode when the second test fails (R141). -/
theorem groupDecode_second_test {d0 d1 d2 d3 d4 : Digit} (h1 : accumulate [d0, d1, d2, d3] ≤ 50529027)
    (h2 : 0xFFFFFFFF - d4.val < accumulate [d0, d1, d2, d3] * 85) : groupDecode d0 d1 d2 d3 d4 = none := by
  unfold groupDecode
  rw [if_neg (Nat.not_lt.2 h1), if_pos h2]

/-- Byte i of a number taken as a 32-bit value. -/
theorem groupByte_ofNat (v i : Nat) (hi : i < 4) :
    groupByte (BitVec.ofNat 32 v) i = BitVec.ofNat 8 (v / 2 ^ (8 * (3 - i))) := by
  apply BitVec.eq_of_toNat_eq
  have h : i = 0 ∨ i = 1 ∨ i = 2 ∨ i = 3 := by omega
  rcases h with h | h | h | h <;> subst h <;>
    simp [groupByte, Nat.shiftRight_eq_div_pow] <;> omega

/-- The bytes of a decoded group are the big-endian bytes of its number. -/
theorem groupList_ofNat (v : Nat) : groupList (groupBytesOf v) = bigEndian v := by
  simp [groupList, groupBytesOf, groupByte_ofNat, bigEndian]

end Sys2Proof.Machine
end

