-- ==== Sys2Proof/Laws/Operands.lean ====
section
/-! SUPPORT. The layouts of groups and of result symbols as arithmetic. -/

namespace Sys2Proof.Machine

/-- A group's bytes as a number, the first the most significant (R54(a)). -/
theorem packGroup_toNat (l : List Byte) :
    (packGroup l).toNat = (l.getD 0 0).toNat * 2 ^ 24 + (l.getD 1 0).toNat * 2 ^ 16 + (l.getD 2 0).toNat * 2 ^ 8 +
      (l.getD 3 0).toNat := by
  simp only [packGroup, toNat_append_eq]
  omega

/-- Packed result symbols as a number, the first in the top byte (R24). -/
theorem packSymbols_toNat (l : List Byte) :
    (packSymbols l).toNat = (l.getD 0 0).toNat * 2 ^ 32 + (l.getD 1 0).toNat * 2 ^ 24 + (l.getD 2 0).toNat * 2 ^ 16 +
      (l.getD 3 0).toNat * 2 ^ 8 + (l.getD 4 0).toNat := by
  simp only [packSymbols, toNat_append_eq]
  omega

/-- Symbol j of res_data as a number (R24). -/
theorem symbolAt_toNat (data : BitVec 40) (j : Nat) : (symbolAt data j).toNat = data.toNat / 2 ^ (8 * (4 - j)) % 2 ^ 8 := by
  simp only [symbolAt, BitVec.extractLsb'_toNat, Nat.shiftRight_eq_div_pow]

end Sys2Proof.Machine
end

