-- ==== Sys2Proof/Laws/State.lean ====
section
/-! SUPPORT. One lemma per field per update: what each named operation on State leaves in each field, so that no later proof unfolds
an update. -/

namespace Sys2Proof.Machine

variable (s : State)

/-! setStatus -/
section
variable (e : Status)
@[simp] theorem setStatus_cmdStatus : (setStatus e s).cmdStatus = statusCode e := rfl
@[simp] theorem setStatus_resData : (setStatus e s).resData = s.resData := rfl
@[simp] theorem setStatus_resLen : (setStatus e s).resLen = s.resLen := rfl
@[simp] theorem setStatus_smState : (setStatus e s).smState = s.smState := rfl
@[simp] theorem setStatus_hold : (setStatus e s).hold = s.hold := rfl
@[simp] theorem setStatus_holdCount : (setStatus e s).holdCount = s.holdCount := rfl
@[simp] theorem setStatus_errCode : (setStatus e s).errCode = s.errCode := rfl
@[simp] theorem setStatus_errByte : (setStatus e s).errByte = s.errByte := rfl
@[simp] theorem setStatus_errPos : (setStatus e s).errPos = s.errPos := rfl
@[simp] theorem setStatus_inCount : (setStatus e s).inCount = s.inCount := rfl
@[simp] theorem setStatus_outCount : (setStatus e s).outCount = s.outCount := rfl
@[simp] theorem setStatus_outStream : (setStatus e s).outStream = s.outStream := rfl
@[simp] theorem setStatus_port : (setStatus e s).port = s.port := rfl
end

/-! setResult -/
section
variable (data : BitVec 40) (len : BitVec 3)
@[simp] theorem setResult_cmdStatus : (setResult data len s).cmdStatus = statusCode .ok := rfl
@[simp] theorem setResult_resData : (setResult data len s).resData = data := rfl
@[simp] theorem setResult_resLen : (setResult data len s).resLen = len := rfl
@[simp] theorem setResult_smState : (setResult data len s).smState = s.smState := rfl
@[simp] theorem setResult_hold : (setResult data len s).hold = s.hold := rfl
@[simp] theorem setResult_holdCount : (setResult data len s).holdCount = s.holdCount := rfl
@[simp] theorem setResult_errCode : (setResult data len s).errCode = s.errCode := rfl
@[simp] theorem setResult_errByte : (setResult data len s).errByte = s.errByte := rfl
@[simp] theorem setResult_errPos : (setResult data len s).errPos = s.errPos := rfl
@[simp] theorem setResult_inCount : (setResult data len s).inCount = s.inCount := rfl
@[simp] theorem setResult_outCount : (setResult data len s).outCount = s.outCount := rfl
@[simp] theorem setResult_outStream : (setResult data len s).outStream = s.outStream := rfl
@[simp] theorem setResult_port : (setResult data len s).port = s.port := rfl
end

/-! raiseStateless -/
section
variable (e : Status)
@[simp] theorem raiseStateless_cmdStatus : (raiseStateless e s).cmdStatus = statusCode e := rfl
@[simp] theorem raiseStateless_resData : (raiseStateless e s).resData = 0 := rfl
@[simp] theorem raiseStateless_resLen : (raiseStateless e s).resLen = 0 := rfl
@[simp] theorem raiseStateless_smState : (raiseStateless e s).smState = s.smState := rfl
@[simp] theorem raiseStateless_hold : (raiseStateless e s).hold = s.hold := rfl
@[simp] theorem raiseStateless_holdCount : (raiseStateless e s).holdCount = s.holdCount := rfl
@[simp] theorem raiseStateless_errCode : (raiseStateless e s).errCode = s.errCode := rfl
@[simp] theorem raiseStateless_errByte : (raiseStateless e s).errByte = s.errByte := rfl
@[simp] theorem raiseStateless_errPos : (raiseStateless e s).errPos = s.errPos := rfl
@[simp] theorem raiseStateless_inCount : (raiseStateless e s).inCount = s.inCount := rfl
@[simp] theorem raiseStateless_outCount : (raiseStateless e s).outCount = s.outCount := rfl
@[simp] theorem raiseStateless_outStream : (raiseStateless e s).outStream = s.outStream := rfl
@[simp] theorem raiseStateless_port : (raiseStateless e s).port = s.port := rfl
end

/-! raiseContext -/
section
variable (e : Status) (byte : Byte)
@[simp] theorem raiseContext_cmdStatus : (raiseContext e byte s).cmdStatus = statusCode e := rfl
@[simp] theorem raiseContext_resData : (raiseContext e byte s).resData = s.resData := rfl
@[simp] theorem raiseContext_resLen : (raiseContext e byte s).resLen = s.resLen := rfl
@[simp] theorem raiseContext_smState : (raiseContext e byte s).smState = .error := rfl
@[simp] theorem raiseContext_hold : (raiseContext e byte s).hold = s.hold := rfl
@[simp] theorem raiseContext_holdCount : (raiseContext e byte s).holdCount = s.holdCount := rfl
@[simp] theorem raiseContext_errCode : (raiseContext e byte s).errCode = statusCode e := rfl
@[simp] theorem raiseContext_errByte : (raiseContext e byte s).errByte = byte := rfl
@[simp] theorem raiseContext_errPos : (raiseContext e byte s).errPos = s.inCount := rfl
@[simp] theorem raiseContext_inCount : (raiseContext e byte s).inCount = s.inCount := rfl
@[simp] theorem raiseContext_outCount : (raiseContext e byte s).outCount = s.outCount := rfl
@[simp] theorem raiseContext_outStream : (raiseContext e byte s).outStream = s.outStream := rfl
@[simp] theorem raiseContext_port : (raiseContext e byte s).port = s.port := rfl
end

/-! clearContext -/
section
@[simp] theorem clearContext_cmdStatus : (clearContext s).cmdStatus = s.cmdStatus := rfl
@[simp] theorem clearContext_resData : (clearContext s).resData = s.resData := rfl
@[simp] theorem clearContext_resLen : (clearContext s).resLen = s.resLen := rfl
@[simp] theorem clearContext_smState : (clearContext s).smState = .empty := rfl
@[simp] theorem clearContext_hold : (clearContext s).hold = clearedHold := rfl
@[simp] theorem clearContext_holdCount : (clearContext s).holdCount = 0 := rfl
@[simp] theorem clearContext_errCode : (clearContext s).errCode = 0 := rfl
@[simp] theorem clearContext_errByte : (clearContext s).errByte = 0x00 := rfl
@[simp] theorem clearContext_errPos : (clearContext s).errPos = 0 := rfl
@[simp] theorem clearContext_inCount : (clearContext s).inCount = 0 := rfl
@[simp] theorem clearContext_outCount : (clearContext s).outCount = 0 := rfl
@[simp] theorem clearContext_outStream : (clearContext s).outStream = [] := rfl
@[simp] theorem clearContext_port : (clearContext s).port = s.port := rfl
end

/-! emit -/
section
variable (b : Byte)
@[simp] theorem emit_cmdStatus : (emit b s).cmdStatus = s.cmdStatus := rfl
@[simp] theorem emit_resData : (emit b s).resData = s.resData := rfl
@[simp] theorem emit_resLen : (emit b s).resLen = s.resLen := rfl
@[simp] theorem emit_smState : (emit b s).smState = s.smState := rfl
@[simp] theorem emit_hold : (emit b s).hold = s.hold := rfl
@[simp] theorem emit_holdCount : (emit b s).holdCount = s.holdCount := rfl
@[simp] theorem emit_errCode : (emit b s).errCode = s.errCode := rfl
@[simp] theorem emit_errByte : (emit b s).errByte = s.errByte := rfl
@[simp] theorem emit_errPos : (emit b s).errPos = s.errPos := rfl
@[simp] theorem emit_inCount : (emit b s).inCount = s.inCount := rfl
@[simp] theorem emit_outCount : (emit b s).outCount = s.outCount + 1 := rfl
@[simp] theorem emit_outStream : (emit b s).outStream = s.outStream ++ [b] := rfl
@[simp] theorem emit_port : (emit b s).port = s.port := rfl
end

/-! setPending -/
section
variable (hold : Hold) (count : BitVec 3)
@[simp] theorem setPending_cmdStatus : (setPending hold count s).cmdStatus = s.cmdStatus := rfl
@[simp] theorem setPending_resData : (setPending hold count s).resData = s.resData := rfl
@[simp] theorem setPending_resLen : (setPending hold count s).resLen = s.resLen := rfl
@[simp] theorem setPending_smState : (setPending hold count s).smState = s.smState := rfl
@[simp] theorem setPending_hold : (setPending hold count s).hold = hold := rfl
@[simp] theorem setPending_holdCount : (setPending hold count s).holdCount = count := rfl
@[simp] theorem setPending_errCode : (setPending hold count s).errCode = s.errCode := rfl
@[simp] theorem setPending_errByte : (setPending hold count s).errByte = s.errByte := rfl
@[simp] theorem setPending_errPos : (setPending hold count s).errPos = s.errPos := rfl
@[simp] theorem setPending_inCount : (setPending hold count s).inCount = s.inCount := rfl
@[simp] theorem setPending_outCount : (setPending hold count s).outCount = s.outCount := rfl
@[simp] theorem setPending_outStream : (setPending hold count s).outStream = s.outStream := rfl
@[simp] theorem setPending_port : (setPending hold count s).port = s.port := rfl
end

/-! countInput -/
section
@[simp] theorem countInput_cmdStatus : (countInput s).cmdStatus = s.cmdStatus := rfl
@[simp] theorem countInput_resData : (countInput s).resData = s.resData := rfl
@[simp] theorem countInput_resLen : (countInput s).resLen = s.resLen := rfl
@[simp] theorem countInput_smState : (countInput s).smState = s.smState := rfl
@[simp] theorem countInput_hold : (countInput s).hold = s.hold := rfl
@[simp] theorem countInput_holdCount : (countInput s).holdCount = s.holdCount := rfl
@[simp] theorem countInput_errCode : (countInput s).errCode = s.errCode := rfl
@[simp] theorem countInput_errByte : (countInput s).errByte = s.errByte := rfl
@[simp] theorem countInput_errPos : (countInput s).errPos = s.errPos := rfl
@[simp] theorem countInput_inCount : (countInput s).inCount = s.inCount + 1 := rfl
@[simp] theorem countInput_outCount : (countInput s).outCount = s.outCount := rfl
@[simp] theorem countInput_outStream : (countInput s).outStream = s.outStream := rfl
@[simp] theorem countInput_port : (countInput s).port = s.port := rfl
end

/-! setSmState -/
section
variable (q : SmState)
@[simp] theorem setSmState_cmdStatus : (setSmState q s).cmdStatus = s.cmdStatus := rfl
@[simp] theorem setSmState_resData : (setSmState q s).resData = s.resData := rfl
@[simp] theorem setSmState_resLen : (setSmState q s).resLen = s.resLen := rfl
@[simp] theorem setSmState_smState : (setSmState q s).smState = q := rfl
@[simp] theorem setSmState_hold : (setSmState q s).hold = s.hold := rfl
@[simp] theorem setSmState_holdCount : (setSmState q s).holdCount = s.holdCount := rfl
@[simp] theorem setSmState_errCode : (setSmState q s).errCode = s.errCode := rfl
@[simp] theorem setSmState_errByte : (setSmState q s).errByte = s.errByte := rfl
@[simp] theorem setSmState_errPos : (setSmState q s).errPos = s.errPos := rfl
@[simp] theorem setSmState_inCount : (setSmState q s).inCount = s.inCount := rfl
@[simp] theorem setSmState_outCount : (setSmState q s).outCount = s.outCount := rfl
@[simp] theorem setSmState_outStream : (setSmState q s).outStream = s.outStream := rfl
@[simp] theorem setSmState_port : (setSmState q s).port = s.port := rfl
end

/-! issueNext -/
section
variable (w : CommandWord)
@[simp] theorem issueNext_cmdStatus : (issueNext w s).cmdStatus = s.cmdStatus := rfl
@[simp] theorem issueNext_resData : (issueNext w s).resData = s.resData := rfl
@[simp] theorem issueNext_resLen : (issueNext w s).resLen = s.resLen := rfl
@[simp] theorem issueNext_smState : (issueNext w s).smState = s.smState := rfl
@[simp] theorem issueNext_hold : (issueNext w s).hold = s.hold := rfl
@[simp] theorem issueNext_holdCount : (issueNext w s).holdCount = s.holdCount := rfl
@[simp] theorem issueNext_errCode : (issueNext w s).errCode = s.errCode := rfl
@[simp] theorem issueNext_errByte : (issueNext w s).errByte = s.errByte := rfl
@[simp] theorem issueNext_errPos : (issueNext w s).errPos = s.errPos := rfl
@[simp] theorem issueNext_inCount : (issueNext w s).inCount = s.inCount := rfl
@[simp] theorem issueNext_outCount : (issueNext w s).outCount = s.outCount := rfl
@[simp] theorem issueNext_outStream : (issueNext w s).outStream = s.outStream := rfl
@[simp] theorem issueNext_port : (issueNext w s).port = .command w :: s.port := rfl
end

/-! assertReset -/
@[simp] theorem assertReset_cmdStatus : (assertReset s).cmdStatus = 0 := rfl
@[simp] theorem assertReset_resData : (assertReset s).resData = 0 := rfl
@[simp] theorem assertReset_resLen : (assertReset s).resLen = 0 := rfl
@[simp] theorem assertReset_smState : (assertReset s).smState = .empty := rfl
@[simp] theorem assertReset_hold : (assertReset s).hold = clearedHold := rfl
@[simp] theorem assertReset_holdCount : (assertReset s).holdCount = 0 := rfl
@[simp] theorem assertReset_errCode : (assertReset s).errCode = 0 := rfl
@[simp] theorem assertReset_errByte : (assertReset s).errByte = 0 := rfl
@[simp] theorem assertReset_errPos : (assertReset s).errPos = 0 := rfl
@[simp] theorem assertReset_inCount : (assertReset s).inCount = 0 := rfl
@[simp] theorem assertReset_outCount : (assertReset s).outCount = 0 := rfl
@[simp] theorem assertReset_outStream : (assertReset s).outStream = [] := rfl
@[simp] theorem assertReset_port : (assertReset s).port = s.port := rfl

end Sys2Proof.Machine
end

