-- ==== Sys2Proof/Laws/Ops.lean ====
section
/-! SUPPORT. The spec lemma of each shared operation over the registers. -/

namespace Sys2Proof.Machine

/-- Emitting a list appends it and counts its bytes modulo 2^32; nothing else changes (R33). -/
theorem emitAll_eq (bs : List Byte) (s : State) :
    emitAll bs s = { s with outStream := s.outStream ++ bs, outCount := s.outCount + BitVec.ofNat 32 bs.length } := by
  induction bs generalizing s with
  | nil => simp [emitAll]
  | cons b bs ih =>
    have h : emitAll (b :: bs) s = emitAll bs (emit b s) := rfl
    rw [h, ih]
    simp [emit, BitVec.ofNat_add]
    ac_rfl

/-- `raiseStateless` makes the writes of R206. -/
theorem raiseStateless_eq (e : Status) (s : State) : raiseStateless e s = afterStatelessError (statusCode e) s := rfl

/-- `raiseContext` makes the writes of R203, R204 and R205(a). -/
theorem raiseContext_eq (e : Status) (byte : Byte) (s : State) :
    raiseContext e byte s = afterContextError (statusCode e) byte s := rfl

/-- The accepting states after SM_FEED, by the new count (R166). -/
theorem acceptingState_eq (k : BitVec 3) : acceptingState k = if k = 0 then .empty else .accumulating := rfl

/-- An accepting state is not ERROR. -/
theorem acceptingState_ne_error (k : BitVec 3) : acceptingState k ≠ .error := by
  unfold acceptingState; split <;> simp

/-- An accepting state is not FINISHED. -/
theorem acceptingState_ne_finished (k : BitVec 3) : acceptingState k ≠ .finished := by
  unfold acceptingState; split <;> simp

end Sys2Proof.Machine
end

