-- ==== Sys2Proof/Laws/PerInstr.lean ====
section
/-! SUPPORT. Statements made per instruction (LAWS.json). Family EncodedOpcode: the OP field of an instruction's word is its opcode
in the map of spec/30_encoding.md R71, and its ARG field is n for ENC_GROUP and 0 in every other command (R70). -/

namespace Sys2Proof.Laws.EncodedOpcode

def Statement (i : Instr) : Prop := opField (encode i) = opOf i ∧ argField (encode i) = argOf i

theorem alphaEnc (v : BitVec 7) : Statement (.alphaEnc v) := ⟨opField_packCommand _ _ _, argField_packCommand _ _ _⟩
theorem alphaDec (c : Byte) : Statement (.alphaDec c) := ⟨opField_packCommand _ _ _, argField_packCommand _ _ _⟩
theorem encGroup (n : BitVec 4) (value : GroupValue) : Statement (.encGroup n value) :=
  ⟨opField_packCommand _ _ _, argField_packCommand _ _ _⟩
theorem decGroup (s0 s1 s2 s3 s4 : Byte) : Statement (.decGroup s0 s1 s2 s3 s4) :=
  ⟨opField_packCommand _ _ _, argField_packCommand _ _ _⟩
theorem smInit : Statement .smInit := ⟨opField_packCommand _ _ _, argField_packCommand _ _ _⟩
theorem smFeed (c : Byte) : Statement (.smFeed c) := ⟨opField_packCommand _ _ _, argField_packCommand _ _ _⟩
theorem smFinalize : Statement .smFinalize := ⟨opField_packCommand _ _ _, argField_packCommand _ _ _⟩

end Sys2Proof.Laws.EncodedOpcode
end

