-- ==== Sys2Proof/Laws/Stateless.lean ====
section
/-! SUPPORT. What a stateless command can do, said once: for a given command the same two writes in every state. -/

namespace Sys2Proof.Machine

/-- The number of result symbols of ENC_GROUP is at most five (R123). -/
theorem groupEncode_length_le (n : Nat) (value : GroupValue) : (groupEncode n value).length ≤ 5 := by
  by_cases h : n = 4 ∧ value = 0
  · rw [h.1, h.2, groupEncode_zero]; simp
  · rw [groupEncode_of_digits h]; simp [groupDigits_eq]

/-- ALPHA_ENC (R101). -/
theorem execAlphaEnc_cases (v : BitVec 7) :
    (∃ h : v.toNat < 85, ∀ s, execAlphaEnc v s = .next (setResult ((romFwd ⟨v.toNat, h⟩).setWidth 40) 1 s)) ∨
    (85 ≤ v.toNat ∧ ∀ s, execAlphaEnc v s = .next (raiseStateless .illegalCommand s)) := by
  by_cases h : v.toNat < 85
  · exact .inl ⟨h, fun s => by rw [execAlphaEnc, dif_pos h]⟩
  · exact .inr ⟨by omega, fun s => by rw [execAlphaEnc, dif_neg h]⟩

/-- ALPHA_DEC (R103). -/
theorem execAlphaDec_cases (c : Byte) :
    (∃ d, romInv c = some d ∧ ∀ s, execAlphaDec c s = .next (setResult (BitVec.ofNat 40 d.val) 1 s)) ∨
    (romInv c = none ∧ ∀ s, execAlphaDec c s = .next (raiseStateless .invalidCharacter s)) := by
  cases h : romInv c with
  | some d => exact .inl ⟨d, rfl, fun s => by simp only [execAlphaDec, h]⟩
  | none => exact .inr ⟨rfl, fun s => by simp only [execAlphaDec, h]⟩

/-- ENC_GROUP (R122). -/
theorem execEncGroup_cases (n : BitVec 4) (value : GroupValue) :
    (Instr.groupOperandLegal n value = true ∧ ∀ s, execEncGroup n value s = .next (setResult
      (packSymbols (groupEncode n.toNat value)) (BitVec.ofNat 3 (groupEncode n.toNat value).length) s)) ∨
    (Instr.groupOperandLegal n value = false ∧ ∀ s, execEncGroup n value s = .next (raiseStateless .illegalCommand s)) := by
  cases h : Instr.groupOperandLegal n value with
  | true => exact .inl ⟨rfl, fun s => by simp only [execEncGroup, h, if_true]⟩
  | false => exact .inr ⟨rfl, fun s => by simp only [execEncGroup, h, if_false, Bool.false_eq_true]⟩

/-- DEC_GROUP (R142). -/
theorem execDecGroup_cases (s0 s1 s2 s3 s4 : Byte) :
    (∃ g, ∀ s, execDecGroup s0 s1 s2 s3 s4 s = .next (setResult ((groupWord g).setWidth 40) 4 s)) ∨
    (∀ s, execDecGroup s0 s1 s2 s3 s4 s = .next (raiseStateless .invalidCharacter s)) ∨
    (∀ s, execDecGroup s0 s1 s2 s3 s4 s = .next (raiseStateless .overflow s)) := by
  unfold execDecGroup
  split
  · split
    · exact .inr (.inr fun _ => rfl)
    · exact .inl ⟨_, fun _ => rfl⟩
  · exact .inr (.inl fun _ => rfl)

/-- Every stateless command writes one result, or one error, whatever the state (R39, R206). -/
theorem exec_stateless_cases (i : Instr) (h : i.stateless = true) :
    (∃ data len, len.toNat ≤ 5 ∧ ∀ s, exec i s = .next (setResult data len s)) ∨
    (∃ e, (e = .invalidCharacter ∨ e = .overflow ∨ e = .illegalCommand) ∧ ∀ s, exec i s = .next (raiseStateless e s)) := by
  cases i with
  | alphaEnc v =>
    rcases execAlphaEnc_cases v with ⟨_, he⟩ | ⟨_, he⟩
    · exact .inl ⟨_, 1, by decide, he⟩
    · exact .inr ⟨_, .inr (.inr rfl), he⟩
  | alphaDec c =>
    rcases execAlphaDec_cases c with ⟨_, _, he⟩ | ⟨_, he⟩
    · exact .inl ⟨_, 1, by decide, he⟩
    · exact .inr ⟨_, .inl rfl, he⟩
  | encGroup n value =>
    rcases execEncGroup_cases n value with ⟨_, he⟩ | ⟨_, he⟩
    · refine .inl ⟨_, _, ?_, he⟩
      have := groupEncode_length_le n.toNat value
      rw [BitVec.toNat_ofNat]; omega
    · exact .inr ⟨_, .inr (.inr rfl), he⟩
  | decGroup s0 s1 s2 s3 s4 =>
    rcases execDecGroup_cases s0 s1 s2 s3 s4 with ⟨_, he⟩ | he | he
    · exact .inl ⟨_, 4, by decide, he⟩
    · exact .inr ⟨_, .inl rfl, he⟩
    · exact .inr ⟨_, .inr (.inl rfl), he⟩
  | smInit => cases h
  | smFeed c => cases h
  | smFinalize => cases h

end Sys2Proof.Machine
end

