-- ==== Sys2Proof/Laws/Stream.lean ====
section
/-! SUPPORT. What SM_FEED and SM_FINALIZE can do, said once: every case of FeedChar and of the two commands. -/

namespace Sys2Proof.Machine

/-- Everything FeedChar can answer (R165). -/
theorem feedChar_cases (hold : Hold) (k : BitVec 3) (c : Byte) :
    (isWhitespace c ∧ feedChar hold k c = .accepted hold k []) ∨
    (c = 0x7A ∧ k = 0 ∧ feedChar hold k c = .accepted hold 0 [0x00, 0x00, 0x00, 0x00]) ∨
    (c = 0x7A ∧ k ≠ 0 ∧ feedChar hold k c = .failed .invalidCharacter) ∨
    (isOther c ∧ feedChar hold k c = .failed .invalidCharacter) ∨
    (isSymbol c ∧ k.toNat < 4 ∧ feedChar hold k c = .accepted (hold.setIfInBounds k.toNat c) (k + 1) []) ∨
    (∃ h : isSymbol c, 4 ≤ k.toNat ∧ feedChar hold k c = flushFull hold ⟨c.toNat - 33, by omega⟩) := by
  rcases byte_class c with h | h | h | h
  · exact .inl ⟨h, by simp [feedChar, charClass_whitespace h]⟩
  · subst h
    by_cases hk : k = 0
    · exact .inr (.inl ⟨rfl, hk, by simp only [feedChar, charClass_zero, if_pos hk]⟩)
    · exact .inr (.inr (.inl ⟨rfl, hk, by simp only [feedChar, charClass_zero, if_neg hk]⟩))
  · by_cases hk : k.toNat < 4
    · exact .inr (.inr (.inr (.inr (.inl ⟨h, hk, by simp [feedChar, charClass_symbol h, hk]⟩))))
    · exact .inr (.inr (.inr (.inr (.inr ⟨h, by omega, by simp [feedChar, charClass_symbol h, hk]⟩))))
  · exact .inr (.inr (.inr (.inl ⟨h, by simp [feedChar, charClass_other h]⟩)))

/-- The flush of a full group overflows, or empties the hold buffer and gives four bytes (R165, R170). -/
theorem flushFull_cases (hold : Hold) (x : Digit) :
    flushFull hold x = .failed .overflow ∨ ∃ b0 b1 b2 b3, flushFull hold x = .accepted clearedHold 0 [b0, b1, b2, b3] := by
  unfold flushFull
  split
  · exact .inl rfl
  · exact .inr ⟨_, _, _, _, rfl⟩

/-- The flush of a short group keeps at most k − 1 bytes (R175). -/
theorem flushShort_length_le {hold : Hold} {k : BitVec 3} {bytes : List Byte} (h : flushShort hold k = some bytes) :
    bytes.length ≤ k.toNat - 1 := by
  unfold flushShort at h
  split at h
  · cases h
  · cases h
    exact List.length_take_le _ _

/-- SM_FEED runs to a next state in one of four ways (R166, R180). -/
theorem execSmFeed_cases (c : Byte) (s : State) :
    (s.smState = .error ∧ execSmFeed c s = .next (setStatus .sequenceError s)) ∨
    (s.smState = .finished ∧ execSmFeed c s = .next (raiseContext .sequenceError c s)) ∨
    (s.accepting ∧ ∃ e, feedChar s.hold s.holdCount c = .failed e ∧ execSmFeed c s = .next (raiseContext e c s)) ∨
    (s.accepting ∧ ∃ hold k bytes, feedChar s.hold s.holdCount c = .accepted hold k bytes ∧
      execSmFeed c s = .next
        (setStatus .ok (setSmState (acceptingState k) (countInput (emitAll bytes (setPending hold k s)))))) := by
  cases hq : s.smState <;> simp only [execSmFeed, feedOpen, State.accepting, hq] <;>
    cases feedChar s.hold s.holdCount c <;> simp

/-- SM_FINALIZE runs to a next state in one of five ways (R176, R180). -/
theorem execSmFinalize_cases (s : State) :
    (s.smState = .error ∧ execSmFinalize s = .next (setStatus .sequenceError s)) ∨
    (s.smState = .finished ∧ execSmFinalize s = .next (raiseContext .sequenceError 0x00 s)) ∨
    (s.accepting ∧ s.holdCount = 0 ∧ execSmFinalize s = .next (setStatus .ok (setSmState .finished s))) ∨
    (s.accepting ∧ s.holdCount ≠ 0 ∧ flushShort s.hold s.holdCount = none ∧
      execSmFinalize s = .next (raiseContext .overflow 0x00 s)) ∨
    (s.accepting ∧ s.holdCount ≠ 0 ∧ ∃ bytes, flushShort s.hold s.holdCount = some bytes ∧
      execSmFinalize s = .next (setStatus .ok (setSmState .finished (setPending clearedHold 0 (emitAll bytes s))))) := by
  by_cases hk : s.holdCount = 0 <;> cases hq : s.smState <;>
    simp only [execSmFinalize, finalizeOpen, State.accepting, hq, hk] <;>
    cases flushShort s.hold s.holdCount <;> simp <;> exact hk

end Sys2Proof.Machine
end

