-- ==== Sys2Proof/Laws/Step.lean ====
section
/-! SUPPORT. A step taken apart: the event at the head of the port, a run of steps one at a time, and what every command has in
common: it answers a next state, and does with the port nothing at all. -/

namespace Sys2Proof.Machine

/-- A step takes the event at the head of the port. -/
theorem step_of_port {s : State} {e : HostEvent} {rest : List HostEvent} (h : s.port = e :: rest) :
    step s = acceptEvent e { s with port := rest } := by
  simp only [step, takeEvent, h]

/-- The block refuses a word that decodes to no command (R206). -/
theorem acceptCommand_of_no_command {w : CommandWord} (h : ∀ i, decode w ≠ .command i) (s : State) :
    acceptCommand w s = .next (raiseStateless .illegalCommand s) := by
  unfold acceptCommand
  split
  · next i hi => exact absurd hi (h i)
  · rfl

/-- One more step of a run. `Host.Core.run` is over `core.State`, which is `State` by unfolding, so it is best rewritten with this
lemma only. -/
theorem core_run_succ (n : Nat) {s t : State} (h : step s = .next t) :
    Host.Core.run Sys2Proof.core (n + 1) s = Host.Core.run Sys2Proof.core n t := by
  have h' : Sys2Proof.core.step s = .next t := h
  simp only [Host.Core.run, h']

/-- A command never reads the port and leaves it as it is. -/
theorem exec_port (i : Instr) (s : State) (p : List HostEvent) :
    ∃ t, exec i s = .next t ∧ t.port = s.port ∧ exec i { s with port := p } = .next { t with port := p } := by
  cases hi : i.stateless with
  | true =>
    rcases exec_stateless_cases i hi with ⟨d, l, _, h⟩ | ⟨e, _, h⟩
    · exact ⟨_, h s, rfl, h _⟩
    · exact ⟨_, h s, rfl, h _⟩
  | false =>
    cases i with
    | smInit => exact ⟨_, rfl, rfl, rfl⟩
    | smFeed c =>
      show ∃ t, execSmFeed c s = _ ∧ _ ∧ execSmFeed c _ = _
      unfold execSmFeed feedOpen
      dsimp only
      split
      · exact ⟨_, rfl, rfl, rfl⟩
      · split
        · exact ⟨_, rfl, rfl, rfl⟩
        · cases feedChar s.hold s.holdCount c with
          | failed e => exact ⟨_, rfl, rfl, rfl⟩
          | accepted h k b => exact ⟨_, rfl, by simp [emitAll_eq], by simp [emitAll_eq, setPending, countInput, setSmState, setStatus]⟩
    | smFinalize =>
      show ∃ t, execSmFinalize s = _ ∧ _ ∧ execSmFinalize _ = _
      unfold execSmFinalize finalizeOpen
      dsimp only
      split
      · exact ⟨_, rfl, rfl, rfl⟩
      · split
        · exact ⟨_, rfl, rfl, rfl⟩
        · split
          · exact ⟨_, rfl, rfl, rfl⟩
          · cases flushShort s.hold s.holdCount with
            | none => exact ⟨_, rfl, rfl, rfl⟩
            | some h => exact ⟨_, rfl, by simp [emitAll_eq], by simp [emitAll_eq, setPending, setSmState, setStatus]⟩
    | alphaEnc v => cases hi
    | alphaDec c => cases hi
    | encGroup n value => cases hi
    | decGroup s0 s1 s2 s3 s4 => cases hi

end Sys2Proof.Machine
end

