-- ==== Sys2Proof/Laws/Pseudo.lean ====
section
/-! SUPPORT. Command sequences taken apart: two one after the other, and a text fed in chunks. -/

namespace Sys2Proof.Machine

/-- One more command of a sequence. -/
theorem runCommands_cons {i : Instr} {s t : State} (h : exec i s = .next t) (rest : List Instr) :
    runCommands (i :: rest) s = runCommands rest t := by
  simp only [runCommands, h]

/-- A sequence of commands always completes (R202). -/
theorem runCommands_completes (program : List Instr) (s : State) : ∃ t, runCommands program s = .next t := by
  induction program generalizing s with
  | nil => exact ⟨s, rfl⟩
  | cons i rest ih =>
    obtain ⟨t, h, _⟩ := exec_port i s []
    rw [runCommands_cons h]
    exact ih t

/-- A sequence in two parts. -/
theorem runCommands_append {first : List Instr} {s t : State} (h : runCommands first s = .next t) (rest : List Instr) :
    runCommands (first ++ rest) s = runCommands rest t := by
  induction first generalizing s with
  | nil => cases h; rfl
  | cons i first ih =>
    obtain ⟨u, hu, _⟩ := exec_port i s []
    rw [runCommands_cons hu] at h
    rw [List.cons_append, runCommands_cons hu, ih h]

/-- Feeding in chunks runs the commands of the whole text (R186). -/
theorem feedChunks_eq (chunks : List (List Byte)) (s : State) :
    feedChunks chunks s = runCommands (feedsProgram chunks.flatten) s := by
  induction chunks generalizing s with
  | nil => rfl
  | cons chunk rest ih =>
    obtain ⟨t, h⟩ := runCommands_completes (feedsProgram chunk) s
    have e : feedsProgram (chunk :: rest).flatten = feedsProgram chunk ++ feedsProgram rest.flatten := by
      simp only [feedsProgram, List.flatten_cons, List.map_append]
    rw [e, runCommands_append h, feedChunks, h]
    exact ih t

end Sys2Proof.Machine
end

