-- ==== Sys2Proof/Tests/Slice0.lean ====
section
/-! SUPPORT. The model's own tests: expected values are those of spec/95_test_vectors.md (the table row is named) or are written out
from the encoding rules. After them, one witness per statement of Certificates/Slice0/Obligations.lean that has hypotheses. -/

namespace Sys2Proof.Tests

open Sys2Proof Sys2Proof.Machine

/-- The next state, if there is one. -/
def nextOf (o : Host.Outcome State Fault Refusal) : Option State :=
  match o with
  | .next t => some t
  | .fault _ => none
  | .refused _ => none

/-- cmd_status, res_data and res_len after a command from reset. -/
def resultOf (i : Instr) : Option (BitVec 4 × BitVec 40 × BitVec 3) :=
  (nextOf (exec i State.reset)).map fun t => (t.cmdStatus, t.resData, t.resLen)

/-- The reset state with a word on the port. -/
def awaiting (w : CommandWord) : State := issueNext w State.reset

/-- A context with pending symbols, 7 characters fed. -/
def pendingState (k : BitVec 3) (hold : Hold) : State :=
  { State.reset with smState := acceptingState k, holdCount := k, hold := hold, inCount := 7 }

/-- A context in ERROR after a misplaced `z` at position 3. -/
def errorState : State :=
  { State.reset with smState := .error, errCode := 1, errByte := 0x7A, errPos := 3, inCount := 3, cmdStatus := 1 }

/-- A finished context. -/
def finishedState : State := { State.reset with smState := .finished, inCount := 2 }

/-! ### WellFormed: each check refuses an ill-formed term, and its boundary passes -/

theorem test_wf_alphaEnc_digit : (Instr.alphaEnc 84).wellFormed = true ∧ (Instr.alphaEnc 85).wellFormed = false := by decide

theorem test_wf_encGroup_size :
    (Instr.encGroup 0 0).wellFormed = false ∧ (Instr.encGroup 1 0).wellFormed = true ∧ (Instr.encGroup 4 0).wellFormed = true ∧
    (Instr.encGroup 5 0).wellFormed = false := by decide

theorem test_wf_encGroup_padding :
    (Instr.encGroup 3 0x4D616E20).wellFormed = false ∧ (Instr.encGroup 3 0x4D616E00).wellFormed = true ∧
    (Instr.encGroup 2 0x4D610100).wellFormed = false ∧ (Instr.encGroup 2 0x4D610000).wellFormed = true ∧
    (Instr.encGroup 1 0x4D010000).wellFormed = false ∧ (Instr.encGroup 1 0x4D000000).wellFormed = true := by decide

/-! ### Decoding: words written out bit by bit, OP ARG DATA (R70, R74 to R79) -/

theorem test_decode_alphaEnc :
    decode 0b000100000000000000000000000000000000000000011000 = .command (.alphaEnc 0b0011000) := by decide

theorem test_decode_alphaDec :
    decode 0b001000000000000000000000000000000000000001011110 = .command (.alphaDec 0b01011110) := by decide

theorem test_decode_encGroup :
    decode 0b001100110000000001001101011000010110111000000000 =
      .command (.encGroup 0b0011 0b01001101011000010110111000000000) := by decide

theorem test_decode_decGroup :
    decode 0b010000000011100101101010011100010110111101011110 =
      .command (.decGroup 0b00111001 0b01101010 0b01110001 0b01101111 0b01011110) := by decide

theorem test_decode_smInit : decode 0b010100000000000000000000000000000000000000000000 = .command .smInit := by decide

theorem test_decode_smFeed :
    decode 0b011000000000000000000000000000000000000001111010 = .command (.smFeed 0b01111010) := by decide

theorem test_decode_smFinalize : decode 0b011100000000000000000000000000000000000000000000 = .command .smFinalize := by decide

/-- spec/95_test_vectors.md sections 2, 3, 4, 6: the refused words of each command, and why. -/
theorem test_decode_refusals :
    decode 0x800000000000 = .illegal .reservedOpcode ∧ decode 0xF00000000000 = .illegal .reservedOpcode ∧
    decode 0x10000000007F = .illegal .operandOutOfRange ∧ decode 0x100000000080 = .illegal .reservedBits ∧
    decode 0x108000000000 = .illegal .reservedBits ∧ decode 0x200000000121 = .illegal .reservedBits ∧
    decode 0x220000000021 = .illegal .reservedBits ∧ decode 0x300000000000 = .illegal .operandOutOfRange ∧
    decode 0x35004D616E20 = .illegal .operandOutOfRange ∧ decode 0x31004D000100 = .illegal .operandOutOfRange ∧
    decode 0x340100000000 = .illegal .reservedBits ∧ decode 0x41396A716F5E = .illegal .reservedBits ∧
    decode 0x600000000100 = .illegal .reservedBits ∧ decode 0x710000000000 = .illegal .reservedBits := by decide

theorem test_decodeTableWord :
    decodeTableWord 48 0x34004D616E20 = some (.encGroup 4 0x4D616E20) ∧ decodeTableWord 48 0x500000000000 = some .smInit ∧
    decodeTableWord 48 0x300000000000 = none ∧ decodeTableWord 56 0x01500000000000 = none := by decide

/-! ### One command from reset: spec/95_test_vectors.md sections 2 to 4 -/

theorem test_alphaEnc : resultOf (.alphaEnc 24) = some (0, 0x39, 1) ∧ resultOf (.alphaEnc 84) = some (0, 0x75, 1) := by decide

theorem test_alphaDec :
    resultOf (.alphaDec 0x5E) = some (0, 61, 1) ∧ resultOf (.alphaDec 0x75) = some (0, 84, 1) ∧
    resultOf (.alphaDec 0x20) = some (1, 0, 0) ∧ resultOf (.alphaDec 0x76) = some (1, 0, 0) := by decide

theorem test_encGroup_full :
    resultOf (.encGroup 4 0x4D616E20) = some (0, 0x396A716F5E, 5) ∧ resultOf (.encGroup 4 0) = some (0, 0x7A00000000, 1) ∧
    resultOf (.encGroup 4 0xFFFFFFFF) = some (0, 0x7338572D21, 5) := by decide

theorem test_encGroup_short :
    resultOf (.encGroup 3 0x4D616E00) = some (0, 0x396A716F00, 4) ∧ resultOf (.encGroup 2 0) = some (0, 0x2121210000, 3) ∧
    resultOf (.encGroup 1 0x01000000) = some (0, 0x213C000000, 2) := by decide

theorem test_decGroup_values :
    resultOf (.decGroup 0x39 0x6A 0x71 0x6F 0x5E) = some (0, 0x4D616E20, 4) ∧
    resultOf (.decGroup 0x73 0x38 0x57 0x2D 0x21) = some (0, 0xFFFFFFFF, 4) := by decide

theorem test_decGroup_errors :
    resultOf (.decGroup 0x73 0x38 0x57 0x2D 0x22) = some (2, 0, 0) ∧ resultOf (.decGroup 0x73 0x38 0x57 0x2E 0x21) = some (2, 0, 0) ∧
    resultOf (.decGroup 0x7A 0x21 0x21 0x21 0x21) = some (1, 0, 0) ∧
    resultOf (.decGroup 0xFF 0xFF 0xFF 0xFF 0xFF) = some (1, 0, 0) := by decide

/-! ### One stream command: spec/95_test_vectors.md sections 5 and 7 -/

/-- SM_INIT clears a context in ERROR (program P3, command 7). -/
theorem test_smInit : nextOf (exec .smInit errorState) = some State.reset := by decide

/-- SM_FEED of the fifth symbol (program P2, command 5), and of a fifth symbol that overflows (row `s8W-"`). -/
theorem test_smFeed_flush :
    (nextOf (exec (.smFeed 0x5E) (pendingState 4 #v[0x39, 0x6A, 0x71, 0x6F, 0]))).map
      (fun t => (t.outStream, t.outCount, t.holdCount, t.smState, t.inCount)) = some ([0x4D, 0x61, 0x6E, 0x20], 4, 0, .empty, 8) ∧
    (nextOf (exec (.smFeed 0x22) (pendingState 4 #v[0x73, 0x38, 0x57, 0x2D, 0]))).map
      (fun t => (t.cmdStatus, t.errCode, t.errByte, t.errPos, t.holdCount)) = some (2, 2, 0x22, 7, 4) := by decide

/-- SM_FEED of a symbol into slot 1 (program P2, command 2), and of a misplaced `z` (program P3, command 4). -/
theorem test_smFeed_symbol_and_z :
    (nextOf (exec (.smFeed 0x6A) (pendingState 1 #v[0x39, 0, 0, 0, 0]))).map (fun t => (t.hold, t.holdCount, t.smState)) =
      some (#v[0x39, 0x6A, 0, 0, 0], 2, .accumulating) ∧
    (nextOf (exec (.smFeed 0x7A) (pendingState 2 #v[0x61, 0x62, 0, 0, 0]))).map (fun t => (t.smState, t.errCode, t.errPos)) =
      some (.error, 1, 7) := by decide

/-- SM_FINALIZE of a short group (program P2, command 13), and of one that overflows (program P5, command 5). -/
theorem test_smFinalize :
    (nextOf (exec .smFinalize (pendingState 3 #v[0x42, 0x6C, 0x61, 0, 0]))).map (fun t => (t.outStream, t.smState, t.hold)) =
      some ([0x69, 0x73], .finished, #v[0, 0, 0, 0, 0]) ∧
    (nextOf (exec .smFinalize (pendingState 4 #v[0x73, 0x38, 0x57, 0x2D, 0]))).map (fun t => (t.errCode, t.errByte, t.hold)) =
      some (2, 0x00, #v[0x73, 0x38, 0x57, 0x2D, 0]) := by decide

/-- A second SM_FINALIZE (section 5, sequencing, first row; program P3, command 11). -/
theorem test_smFinalize_twice :
    (nextOf (exec .smFinalize finishedState)).map (fun t => (t.cmdStatus, t.errCode, t.errByte, t.errPos, t.smState)) =
      some (5, 5, 0x00, 2, .error) := by decide

/-! ### Steps, the read port, the ROMs, the assembler -/

/-- `withFetchWord` puts the word where the very next step takes it, and the step takes it away. -/
theorem test_withFetchWord :
    nextOf (step (State.reset.withFetchWord 48 0x100000000018)) = nextOf (exec (.alphaEnc 24) State.reset) := by decide

/-- A refused word (section 6): the result registers are cleared, the context is not. -/
theorem test_step_refused :
    nextOf (step (issueNext 0x500000000001 (pendingState 1 #v[0x39, 0, 0, 0, 0]))) =
      some { pendingState 1 #v[0x39, 0, 0, 0, 0] with cmdStatus := 6 } := by decide

/-- The end of program P5: STATUS, HOLD_LO, HOLD_HI, ERR_POS, IN_COUNT. -/
theorem test_readPort :
    (nextOf (exec .smFinalize
      { pendingState 4 #v[0x73, 0x38, 0x57, 0x2D, 0] with smState := .error, errCode := 2, errPos := 4, inCount := 4 })).map
      (fun t => (readPort t 0x0, readPort t 0x3, readPort t 0x4, readPort t 0x6, readPort t 0x7)) =
      some (0x00001325, 0x7338572D, 0, 4, 4) := by decide

/-- Glyphs of spec/40_alphabet_rom.md: `!` 0, `9` 24, `^` 61, `u` 84; and the addresses with no entry. -/
theorem test_roms :
    romFwd 0 = 0x21 ∧ romFwd 24 = 0x39 ∧ romFwd 61 = 0x5E ∧ romFwd 84 = 0x75 ∧ romInv 0x20 = none ∧ romInv 0x76 = none ∧
    romInv 0x7A = none ∧ memRead .fwd 85 = none := by decide

/-- P1 and P2: the message and its text, one group of each kind. -/
theorem test_encode_and_decode :
    encodeMessage [0x4D, 0x61, 0x6E, 0x20, 0, 0, 0, 0, 0x69, 0x73] = [0x39, 0x6A, 0x71, 0x6F, 0x5E, 0x7A, 0x42, 0x6C, 0x61] ∧
    decodeText [0x61, 0x62, 0x20, 0x7A] State.reset = .failed 1 3 0x7A := by decide

/-- R83 to R86 on lines of the spec, and the written form of a command word (details of the text: notes/assumptions/9.md). -/
theorem test_assembler :
    assembleLine "ALPHA_ENC 24".toList = some [.alphaEnc 24] ∧
    assembleLine "ALPHA_DEC '^'".toList = some [.alphaDec 0x5E] ∧
    assembleLine "ENC_GROUP 4, 0x4D616E20".toList = some [.encGroup 4 0x4D616E20] ∧
    assembleLine "ENC_GROUP 1, [0x4D]".toList = some [.encGroup 1 0x4D000000] ∧
    assembleLine "DEC_GROUP \"9jqo^\"".toList = some [.decGroup 0x39 0x6A 0x71 0x6F 0x5E] ∧
    assembleLine "DEC_GROUP 0x396A716F5E".toList = some [.decGroup 0x39 0x6A 0x71 0x6F 0x5E] ∧
    assembleLine "DECODE \"z\"".toList = some [.smInit, .smFeed 0x7A, .smFinalize] ∧
    wordText (encode (.encGroup 4 0x4D616E20)) = "34004D616E20".toList := by decide

/-! ### Witnesses: concrete states and operands that meet each statement's hypotheses -/

theorem witness_DecodeOfEncodeIsTheInstruction :
    (Instr.alphaEnc 84).wellFormed = true ∧ (Instr.alphaDec 0xFF).wellFormed = true ∧
    (Instr.encGroup 1 0xFF000000).wellFormed = true ∧ (Instr.encGroup 2 0xFFFF0000).wellFormed = true ∧
    (Instr.encGroup 3 0xFFFFFF00).wellFormed = true ∧ (Instr.encGroup 4 0xFFFFFFFF).wellFormed = true ∧
    (Instr.decGroup 0xFF 0xFF 0xFF 0xFF 0xFF).wellFormed = true ∧ Instr.smInit.wellFormed = true ∧
    (Instr.smFeed 0xFF).wellFormed = true ∧ Instr.smFinalize.wellFormed = true := by decide

theorem witness_ReservedOpcodesAreRefused :
    BitVec.toNat (0x0FFFFFFFFFFF : CommandWord) / 2 ^ 44 = 0 ∧ 8 ≤ BitVec.toNat (0x800000000000 : CommandWord) / 2 ^ 44 ∧
    8 ≤ BitVec.toNat (0xFFFFFFFFFFFF : CommandWord) / 2 ^ 44 := by decide

theorem witness_StatelessErrorsWriteOnlyTheResult :
    decode 0x100000000055 = .illegal .operandOutOfRange ∧ (∀ i, decode 0x100000000055 ≠ .command i) ∧
    (Instr.alphaDec 0x76).stateless = true ∧ (nextOf (exec (.alphaDec 0x76) errorState)).map (·.cmdStatus) = some 1 ∧
    (Instr.decGroup 0x75 0x75 0x75 0x75 0x75).stateless = true ∧
    (nextOf (exec (.decGroup 0x75 0x75 0x75 0x75 0x75) errorState)).map (·.cmdStatus) = some 2 := by
  have h : decode 0x100000000055 = .illegal .operandOutOfRange := by decide
  exact ⟨h, (fun i hi => by rw [h] at hi; cases hi), by decide⟩

theorem witness_StepRunsTheDecodedCommand :
    (awaiting 0x60000000007A).port = .command 0x60000000007A :: [] ∧ decode 0x60000000007A = .command (.smFeed 0x7A) ∧
    ({ errorState with port := [.reset, .command 0x500000000000] } : State).port = .reset :: [.command 0x500000000000] := by decide

theorem witness_IdleBlockHoldsItsState : errorState.port = [] := by decide

theorem witness_ReadPortMapsTheRegisters : 9 ≤ (0x9 : BitVec 4).toNat ∧ 9 ≤ (0xF : BitVec 4).toNat := by decide

/-- One symbol pending, the smallest. -/
theorem inv_one : (pendingState 1 #v[0x21, 0, 0, 0, 0]).Inv :=
  ⟨by decide, by decide, by decide, by decide, by decide, by unfold State.heldAreSymbols; decide,
    by unfold State.freeAreZero; decide, by decide, by decide, by decide, by decide, by decide⟩

/-- Four symbols pending, the largest. -/
theorem inv_four : (pendingState 4 #v[0x75, 0x75, 0x75, 0x75, 0]).Inv :=
  ⟨by decide, by decide, by decide, by decide, by decide, by unfold State.heldAreSymbols; decide,
    by unfold State.freeAreZero; decide, by decide, by decide, by decide, by decide, by decide⟩

/-- ERROR. -/
theorem inv_error : errorState.Inv :=
  ⟨by decide, by decide, by decide, by decide, by decide, by unfold State.heldAreSymbols; decide,
    by unfold State.freeAreZero; decide, by decide, by decide, by decide, by decide, by decide⟩

/-- FINISHED meets the invariant. -/
theorem inv_finished : finishedState.Inv :=
  ⟨by decide, by decide, by decide, by decide, by decide, by unfold State.heldAreSymbols; decide,
    by unfold State.freeAreZero; decide, by decide, by decide, by decide, by decide, by decide⟩

/-- The invariant does not speak of the port. -/
theorem inv_issueNext {s : State} (h : s.Inv) (w : CommandWord) : (issueNext w s).Inv :=
  ⟨h.holdCount_le, h.empty_none, h.accumulating_some, h.finished_none, h.errCode_iff, h.held_symbols, h.free_zero,
    h.cmdStatus_code, h.errCode_code, h.noError_clear, h.resLen_le, h.outCount_eq⟩

theorem witness_EveryStepKeepsTheInvariant :
    (issueNext 0x600000000075 (pendingState 4 #v[0x75, 0x75, 0x75, 0x75, 0])).Inv ∧
    (issueNext 0x600000000075 (pendingState 1 #v[0x21, 0, 0, 0, 0])).Inv ∧
    (nextOf (step (issueNext 0x600000000075 (pendingState 4 #v[0x75, 0x75, 0x75, 0x75, 0])))).isSome = true ∧
    (nextOf (step (issueNext 0x600000000075 (pendingState 1 #v[0x21, 0, 0, 0, 0])))).isSome = true :=
  ⟨inv_issueNext inv_four _, inv_issueNext inv_one _, by decide, by decide⟩

theorem witness_AlphabetRomContents :
    0 ≤ 84 ∧ 84 ≤ 84 ∧ 85 ≤ 85 ∧ 85 ≤ 127 ∧ 127 ≤ 127 ∧ isSymbol 0x21 ∧ isSymbol 0x75 ∧ ¬isSymbol 0x20 ∧ ¬isSymbol 0x76 ∧
    romInv 0x75 = some 84 := by decide

theorem witness_AlphaEncGivesTheSymbol :
    (84 : BitVec 7).toNat ≤ 84 ∧
    BitVec.toNat (0x100000000054 : CommandWord) / 2 ^ 44 = 1 ∧ BitVec.toNat (0x100000000054 : CommandWord) % 2 ^ 44 ≤ 84 ∧
    BitVec.toNat (0x100000000055 : CommandWord) / 2 ^ 44 = 1 ∧ ¬BitVec.toNat (0x100000000055 : CommandWord) % 2 ^ 44 ≤ 84 := by
  decide

theorem witness_AlphaDecGivesTheDigit :
    isSymbol 0x21 ∧ isSymbol 0x75 ∧ ¬isSymbol 0x20 ∧ ¬isSymbol 0x76 ∧
    BitVec.toNat (0x2000000000FF : CommandWord) / 2 ^ 44 = 2 ∧ BitVec.toNat (0x2000000000FF : CommandWord) % 2 ^ 44 < 256 ∧
    BitVec.toNat (0x200000000100 : CommandWord) / 2 ^ 44 = 2 ∧ ¬BitVec.toNat (0x200000000100 : CommandWord) % 2 ^ 44 < 256 := by
  decide

theorem witness_AlphabetCommandsAreInverse : (84 : BitVec 7).toNat ≤ 84 ∧ isSymbol 0x21 ∧ isSymbol 0x75 := by decide

theorem witness_EncGroupGivesTheSymbols :
    legalOperands (.encGroup 4 1) ∧ ¬((4 : BitVec 4) = 4 ∧ (1 : GroupValue) = 0) ∧ legalOperands (.encGroup 3 0xFFFFFF00) ∧
    legalOperands (.encGroup 2 0xFFFF0000) ∧ legalOperands (.encGroup 1 0) ∧ ¬((1 : BitVec 4) = 4 ∧ (0 : GroupValue) = 0) ∧
    BitVec.toNat (0x3100FF000000 : CommandWord) / 2 ^ 44 = 3 ∧
    BitVec.toNat (0x3100FF000000 : CommandWord) / 2 ^ 32 % 2 ^ 8 = 0 ∧ legalOperands (.encGroup 1 0xFF000000) ∧
    ¬legalOperands (.encGroup 1 0x00000001) := by
  simp only [legalOperands, paddingIsZero]; decide

theorem witness_ShorthandOnlyForAFullZeroGroup :
    legalOperands (.encGroup 4 0) ∧ (nextOf (exec (.encGroup 4 0) State.reset)).isSome = true ∧ legalOperands (.encGroup 3 0) ∧
    (nextOf (exec (.encGroup 3 0) State.reset)).isSome = true := by
  simp only [legalOperands, paddingIsZero]; decide

theorem witness_DecGroupGivesTheBytes :
    ¬(isSymbol 0x20 ∧ isSymbol 0x21 ∧ isSymbol 0x21 ∧ isSymbol 0x21 ∧ isSymbol 0x21) ∧
    (isSymbol 0x73 ∧ isSymbol 0x38 ∧ isSymbol 0x57 ∧ isSymbol 0x2D ∧ isSymbol 0x22) ∧
    symbolsNumber 0x73 0x38 0x57 0x2D 0x22 = 0xFFFFFFFF + 1 ∧
    (isSymbol 0x73 ∧ isSymbol 0x38 ∧ isSymbol 0x57 ∧ isSymbol 0x2D ∧ isSymbol 0x21) ∧
    symbolsNumber 0x73 0x38 0x57 0x2D 0x21 = 0xFFFFFFFF ∧
    BitVec.toNat (0x407338572D21 : CommandWord) / 2 ^ 44 = 4 ∧
    BitVec.toNat (0x407338572D21 : CommandWord) / 2 ^ 40 % 2 ^ 4 = 0 ∧
    BitVec.toNat (0x417338572D21 : CommandWord) / 2 ^ 40 % 2 ^ 4 ≠ 0 := by decide

theorem witness_GroupDecodeOverflowsExactlyAboveTheRange : groupNumber 82 23 54 12 0 = 0xFFFFFFFF := by decide

theorem witness_FirstSymbolBoundsOverflow :
    83 ≤ (83 : Digit).val ∧ (81 : Digit).val ≤ 81 ∧ (82 : Digit).val = 82 := by decide

theorem witness_FullGroupRoundTrip : (1 : GroupValue) ≠ 0 ∧ (0xFFFFFFFF : GroupValue) ≠ 0 := by decide

theorem witness_ShortGroupRoundTrip :
    BitVec.toNat (0xFF000000 : GroupValue) % 2 ^ (8 * (4 - 1)) = 0 ∧
    BitVec.toNat (0xFFFF0000 : GroupValue) % 2 ^ (8 * (4 - 2)) = 0 ∧
    BitVec.toNat (0xFFFFFF00 : GroupValue) % 2 ^ (8 * (4 - 3)) = 0 := by decide

theorem witness_SmInitCreatesTheContext :
    errorState.smState = .error ∧ (nextOf (exec .smInit errorState)).map (·.smState) = some .empty ∧
    BitVec.toNat (0x500000000000 : CommandWord) / 2 ^ 44 = 5 ∧
    BitVec.toNat (0x500000000000 : CommandWord) % 2 ^ 44 = 0 ∧ BitVec.toNat (0x500000000001 : CommandWord) / 2 ^ 44 = 5 ∧
    BitVec.toNat (0x500000000001 : CommandWord) % 2 ^ 44 ≠ 0 := by decide

/-- Both ends of every range of class other. -/
theorem witness_EveryByteFallsInOneClass :
    (0x08 : Byte).toNat ≤ 0x08 ∧ 0x0E ≤ (0x0E : Byte).toNat ∧ (0x1F : Byte).toNat ≤ 0x1F ∧ 0x76 ≤ (0x76 : Byte).toNat ∧
    (0x79 : Byte).toNat ≤ 0x79 ∧ 0x7B ≤ (0x7B : Byte).toNat ∧ 33 ≤ (0x21 : Byte).toNat ∧ (0x75 : Byte).toNat ≤ 117 := by decide

theorem witness_FeedCharFollowsTheByteClass :
    isWhitespace 0x20 ∧ isWhitespace 0x0A ∧ isWhitespace 0x0D ∧ isWhitespace 0x09 ∧ isOther 0x00 ∧ isOther 0x76 ∧ isOther 0x79 ∧
    isOther 0x7B ∧ isOther 0xFF ∧ isSymbol 0x21 ∧ isSymbol 0x75 ∧ (0 : BitVec 3) = 0 ∧ (1 : BitVec 3) ≠ 0 ∧
    (3 : BitVec 3).toNat < 4 := by
  refine ⟨?_, ?_, ?_, ?_, ?_, ?_, ?_, ?_, ?_, ?_⟩ <;> decide

/-- The flushing clause, on both sides of the overflow bound. -/
theorem witness_FeedCharFollowsTheByteClass_flush :
    isSymbol 0x73 ∧ isSymbol 0x38 ∧ isSymbol 0x57 ∧ isSymbol 0x2D ∧ isSymbol 0x21 ∧ isSymbol 0x22 ∧
    symbolsNumber 0x73 0x38 0x57 0x2D 0x21 ≤ 0xFFFFFFFF ∧ ¬symbolsNumber 0x73 0x38 0x57 0x2D 0x22 ≤ 0xFFFFFFFF := by decide

theorem witness_SmFeedAppliesFeedChar :
    errorState.smState = .error ∧ finishedState.smState = .finished ∧ State.reset.accepting ∧
    feedChar State.reset.hold State.reset.holdCount 0x7B = .failed .invalidCharacter ∧
    feedChar State.reset.hold State.reset.holdCount 0x75 = .accepted #v[0x75, 0, 0, 0, 0] 1 [] ∧
    BitVec.toNat (0x6000000000FF : CommandWord) / 2 ^ 44 = 6 ∧
    BitVec.toNat (0x6000000000FF : CommandWord) % 2 ^ 44 < 256 ∧ BitVec.toNat (0x600000000100 : CommandWord) / 2 ^ 44 = 6 ∧
    ¬BitVec.toNat (0x600000000100 : CommandWord) % 2 ^ 44 < 256 := by decide

theorem witness_WhitespaceIsSkipped :
    State.reset.accepting ∧ (State.reset.smState = .empty ↔ State.reset.holdCount = 0) ∧
    (pendingState 2 #v[0x61, 0x62, 0, 0, 0]).accepting ∧
    ((pendingState 2 #v[0x61, 0x62, 0, 0, 0]).smState = .empty ↔ (pendingState 2 #v[0x61, 0x62, 0, 0, 0]).holdCount = 0) ∧
    isWhitespace 0x20 ∧ isWhitespace 0x09 := by decide

theorem witness_ShorthandOnlyAtAGroupBoundary :
    State.reset.accepting ∧ State.reset.holdCount = 0 ∧ (pendingState 1 #v[0x21, 0, 0, 0, 0]).accepting ∧
    (pendingState 1 #v[0x21, 0, 0, 0, 0]).holdCount ≠ 0 := by decide

theorem witness_InvalidCharacterIsRecorded :
    State.reset.accepting ∧ isOther 0x00 ∧ isOther 0x76 ∧ (pendingState 4 #v[0x75, 0x75, 0x75, 0x75, 0]).accepting ∧
    (pendingState 4 #v[0x75, 0x75, 0x75, 0x75, 0]).holdCount ≠ 0 := by decide

theorem witness_FifthSymbolFlushesTheGroup :
    State.reset.accepting ∧ State.reset.holdCount.toNat < 4 ∧ (pendingState 3 #v[0x21, 0x21, 0x75, 0, 0]).accepting ∧
    (pendingState 3 #v[0x21, 0x21, 0x75, 0, 0]).holdCount.toNat < 4 ∧
    (pendingState 4 #v[0x73, 0x38, 0x57, 0x2D, 0]).accepting ∧ (pendingState 4 #v[0x73, 0x38, 0x57, 0x2D, 0]).holdCount = 4 ∧
    (pendingState 4 #v[0x73, 0x38, 0x57, 0x2D, 0]).heldAreSymbols ∧ isSymbol 0x21 ∧ isSymbol 0x22 ∧
    symbolsNumber 0x73 0x38 0x57 0x2D 0x21 ≤ 0xFFFFFFFF ∧ ¬symbolsNumber 0x73 0x38 0x57 0x2D 0x22 ≤ 0xFFFFFFFF := by
  unfold State.heldAreSymbols; decide

/-- The last clauses at k = 1 and 4, on both sides of the threshold of R178. -/
theorem witness_SmFinalizeFlushesTheShortGroup :
    errorState.smState = .error ∧ finishedState.smState = .finished ∧ State.reset.accepting ∧ State.reset.holdCount = 0 ∧
    (pendingState 4 #v[0x73, 0x38, 0x57, 0x2C, 0]).accepting ∧ (pendingState 4 #v[0x73, 0x38, 0x57, 0x2C, 0]).heldAreSymbols ∧
    (pendingState 4 #v[0x73, 0x38, 0x57, 0x2C, 0]).holdCount ≠ 0 ∧
    paddedNumber 4 #v[0x73, 0x38, 0x57, 0x2C, 0] ≤ 0xFFFFFFFF ∧ ¬paddedNumber 4 #v[0x73, 0x38, 0x57, 0x2D, 0] ≤ 0xFFFFFFFF ∧
    (pendingState 1 #v[0x72, 0, 0, 0, 0]).heldAreSymbols ∧ paddedNumber 1 #v[0x72, 0, 0, 0, 0] ≤ 0xFFFFFFFF ∧
    ¬paddedNumber 1 #v[0x73, 0, 0, 0, 0] ≤ 0xFFFFFFFF ∧
    BitVec.toNat (0x700000000000 : CommandWord) / 2 ^ 44 = 7 ∧ BitVec.toNat (0x700000000000 : CommandWord) % 2 ^ 44 = 0 ∧
    BitVec.toNat (0x710000000000 : CommandWord) / 2 ^ 44 = 7 ∧ BitVec.toNat (0x710000000000 : CommandWord) % 2 ^ 44 ≠ 0 := by
  unfold State.heldAreSymbols; decide

/-- Each clause on both sides of its threshold: `r`/`s`, `s7`/`s8`, `s8V`/`s8W`, `s8W,`/`s8W-`. -/
theorem witness_ShortGroupOverflowThresholds :
    (nextOf (exec .smFinalize (pendingState 1 #v[0x72, 0, 0, 0, 0]))).map (·.cmdStatus) = some 0 ∧
    (nextOf (exec .smFinalize (pendingState 1 #v[0x73, 0, 0, 0, 0]))).map (·.cmdStatus) = some 2 ∧
    (nextOf (exec .smFinalize (pendingState 2 #v[0x73, 0x37, 0, 0, 0]))).map (·.cmdStatus) = some 0 ∧
    (nextOf (exec .smFinalize (pendingState 2 #v[0x73, 0x38, 0, 0, 0]))).map (·.cmdStatus) = some 2 ∧
    (nextOf (exec .smFinalize (pendingState 3 #v[0x73, 0x38, 0x56, 0, 0]))).map (·.cmdStatus) = some 0 ∧
    (nextOf (exec .smFinalize (pendingState 3 #v[0x73, 0x38, 0x57, 0, 0]))).map (·.cmdStatus) = some 2 ∧
    (nextOf (exec .smFinalize (pendingState 4 #v[0x73, 0x38, 0x57, 0x2C, 0]))).map (·.cmdStatus) = some 0 ∧
    (nextOf (exec .smFinalize (pendingState 4 #v[0x73, 0x38, 0x57, 0x2D, 0]))).map (·.cmdStatus) = some 2 ∧
    (pendingState 4 #v[0x73, 0x38, 0x57, 0x2D, 0]).accepting ∧ (pendingState 4 #v[0x73, 0x38, 0x57, 0x2D, 0]).heldAreSymbols := by
  unfold State.heldAreSymbols; decide

theorem witness_LonePendingSymbolEmitsNothing :
    (pendingState 1 #v[0x72, 0, 0, 0, 0]).accepting ∧ (pendingState 1 #v[0x72, 0, 0, 0, 0]).holdCount = 1 ∧ isSymbol 0x72 ∧
    isSymbol 0x73 := by decide

theorem witness_SequenceErrorAfterTheEnd : finishedState.smState = .finished ∧ errorState.smState = .error := by decide

/-- SM_INIT after an error, and reset after the end of a stream. -/
theorem witness_OnlyInitAndResetReviveTheContext :
    errorState.smState = .error ∧ finishedState.smState = .finished ∧
    (nextOf (acceptEvent (.command 0x500000000000) errorState)).map (·.smState) = some .empty ∧
    (nextOf (acceptEvent .reset finishedState)).map (·.smState) = some .empty := by decide

/-- A recorded error is kept by SM_FEED; one is recorded by SM_FEED and by SM_FINALIZE; the others write none. -/
theorem witness_FirstContextErrorIsKept :
    (errorState.Inv ∧ (pendingState 1 #v[0x21, 0, 0, 0, 0]).Inv ∧ finishedState.Inv) ∧
    errorState.errCode ≠ 0 ∧ (decode 0x600000000021 ≠ .command .smInit) ∧
    (nextOf (acceptCommand 0x600000000021 errorState)).isSome = true ∧
    (pendingState 1 #v[0x21, 0, 0, 0, 0]).errCode = 0 ∧
    (nextOf (exec (.smFeed 0x7B) (pendingState 1 #v[0x21, 0, 0, 0, 0]))).map (·.cmdStatus) = some 1 ∧
    finishedState.errCode = 0 ∧ (nextOf (exec .smFinalize finishedState)).map (·.cmdStatus) = some 5 ∧
    Instr.smFeed 0x20 ≠ .smInit ∧ (nextOf (exec (.smFeed 0x20) State.reset)).map (·.cmdStatus) = some 0 ∧
    (Instr.alphaDec 0).stateless = true ∧ decode 0x000000000000 = .illegal .reservedOpcode :=
  ⟨⟨inv_error, inv_one, inv_finished⟩, by decide⟩

theorem witness_StatelessCommandsKeepTheContext :
    (Instr.alphaEnc 0).stateless = true ∧ (Instr.alphaDec 0).stateless = true ∧ (Instr.encGroup 1 0).stateless = true ∧
    (Instr.decGroup 0 0 0 0 0).stateless = true := by decide

theorem witness_StreamCommandsKeepTheResult :
    Instr.smInit.stateless = false ∧ (Instr.smFeed 0).stateless = false ∧ Instr.smFinalize.stateless = false := by decide

/-- Two states with one context and different result registers. -/
theorem witness_NoCommandReadsTheResultRegisters :
    SameContext errorState { errorState with cmdStatus := 6, resData := 0x39, resLen := 1 } :=
  ⟨rfl, rfl, rfl, rfl, rfl, rfl, rfl, rfl, rfl⟩

theorem witness_ErrorKindsPerCommand :
    (Instr.encGroup 4 0).wellFormed = true ∧ (nextOf (exec (.encGroup 4 0) State.reset)).isSome = true ∧
    (Instr.smFeed 0x7B).wellFormed = true ∧ (nextOf (exec (.smFeed 0x7B) State.reset)).map (·.cmdStatus) = some 1 ∧
    (∃ i, i = Instr.smFinalize ∧ (nextOf (exec i finishedState)).map (·.cmdStatus) = some 5) := by
  refine ⟨by decide, by decide, by decide, by decide, _, rfl, by decide⟩

/-- Four bytes from SM_FEED, three from SM_FINALIZE. -/
theorem witness_OutputPerCommand :
    (pendingState 4 #v[0x39, 0x6A, 0x71, 0x6F, 0]).holdCount.toNat ≤ 4 ∧
    (nextOf (exec (.smFeed 0x5E) (pendingState 4 #v[0x39, 0x6A, 0x71, 0x6F, 0]))).map (·.outStream.length) = some 4 ∧
    (nextOf (exec .smFinalize (pendingState 4 #v[0x39, 0x6A, 0x71, 0x6F, 0]))).map (·.outStream.length) = some 3 ∧
    Instr.smFinalize ≠ .smInit := by decide

/-- in_count wraps (R29); an error does not count. -/
theorem witness_InputCountCountsConsumedCharacters :
    (nextOf (exec (.smFeed 0x20) { State.reset with inCount := 0xFFFFFFFF })).map (fun t => (t.cmdStatus, t.inCount)) = some (0, 0) ∧
    (nextOf (exec (.smFeed 0x7B) { State.reset with inCount := 5 })).map (fun t => (t.cmdStatus, t.inCount, t.errPos)) =
      some (1, 5, 5) ∧
    (nextOf (exec .smInit errorState)).isSome = true ∧ (nextOf (acceptEvent .reset errorState)).isSome = true ∧
    (nextOf (exec .smFinalize errorState)).isSome = true ∧ decode 0x600000000100 = .illegal .reservedBits := by decide

theorem witness_WhitespaceDoesNotChangeTheResult :
    [0x21, 0x20, 0x0A, 0x21].filter (fun c : Byte => decide (¬isWhitespace c)) =
      [0x09, 0x21, 0x21, 0x0D].filter (fun c : Byte => decide (¬isWhitespace c)) := by decide

/-- A text of P1 split inside a group, before `z` and with an empty chunk. -/
theorem witness_ChunkedFeedingIsWholeFeeding :
    [[0x39, 0x6A], [], [0x71, 0x6F, 0x5E], [0x7A, 0x42, 0x6C, 0x61]].flatten =
      encodeMessage [0x4D, 0x61, 0x6E, 0x20, 0, 0, 0, 0, 0x69, 0x73] := by decide

/-- The stream of R186: SM_INIT, two chunks of "9jqo" split inside the group, SM_FINALIZE (section 5, row `9jqo`). -/
theorem test_feedChunks :
    (nextOf (exec .smInit errorState)).bind (fun t => (nextOf (feedChunks [[0x39], [0x6A, 0x71, 0x6F]] t)).bind
      (fun u => (nextOf (exec .smFinalize u)).map (fun v => (v.outStream, v.errCode, v.inCount)))) =
      some ([0x4D, 0x61, 0x6E], 0, 4) := by decide

/-- Both bounds are met with equality: `z`, and four symbols of a short group. -/
theorem witness_DecodedLengthIsBounded :
    decodeText [0x7A] State.reset = .bytes [0, 0, 0, 0] ∧
    decodeText [0x39, 0x6A, 0x71, 0x6F] State.reset = .bytes [0x4D, 0x61, 0x6E] ∧ 0x7A ∉ ([0x39, 0x6A, 0x71, 0x6F] : List Byte) := by
  decide

/-- A text with no error and one with an error, from an empty port. -/
theorem witness_DecodeRunsOnTheCommandPort :
    errorState.port = [] ∧ (issueAll (decodeProgram [0x7A]) errorState).port.length = 3 := by decide

end Sys2Proof.Tests
end

/-! PROOFS. The family of spec/10_state.md: the read port, the invariant, and which commands write the error record, the context and
in_count. First what the stream commands and every command can do, said once; then each property from that. -/

namespace Sys2Proof.Machine

/-! ### The pending symbols -/

/-- The hold buffer with k pending symbols as R26(a) and R27 want it, slot by slot. -/
structure PendingOk (hold : Hold) (k : BitVec 3) : Prop where
  count_le : k.toNat ≤ 4
  symbol : ∀ i (hi : i < 5), i < k.toNat → isSymbol hold[i]
  free : ∀ i (hi : i < 5), k.toNat ≤ i → hold[i] = 0x00

/-- `PendingOk` is the part of the invariant that speaks of the hold buffer. -/
theorem pendingOk_iff (s : State) :
    PendingOk s.hold s.holdCount ↔ s.holdCount.toNat ≤ 4 ∧ s.heldAreSymbols ∧ s.freeAreZero := by
  constructor
  · rintro ⟨hle, hsym, hfree⟩
    exact ⟨hle, ⟨hsym 0 _, hsym 1 _, hsym 2 _, hsym 3 _⟩, hfree 0 _, hfree 1 _, hfree 2 _, hfree 3 _, hfree 4 _ hle⟩
  · rintro ⟨hle, ⟨s0, s1, s2, s3⟩, f0, f1, f2, f3, f4⟩
    refine ⟨hle, fun i hi hik => ?_, fun i hi hki => ?_⟩
    · interval_cases i
      exacts [s0 hik, s1 hik, s2 hik, s3 hik, by omega]
    · interval_cases i
      exacts [f0 hki, f1 hki, f2 hki, f3 hki, f4]

theorem State.Inv.pendingOk {s : State} (h : s.Inv) : PendingOk s.hold s.holdCount :=
  (pendingOk_iff s).2 ⟨h.holdCount_le, h.held_symbols, h.free_zero⟩

/-- The empty hold buffer. -/
theorem pendingOk_cleared : PendingOk clearedHold 0 where
  count_le := by decide
  symbol _ _ h := absurd h (Nat.not_lt_zero _)
  free := by decide

/-- One more symbol in the first free slot (R165). -/
theorem PendingOk.push {hold : Hold} {k : BitVec 3} {c : Byte} (h : PendingOk hold k) (hc : isSymbol c) (hk : k.toNat < 4) :
    PendingOk (hold.setIfInBounds k.toNat c) (k + 1) := by
  have hk1 : (k + 1).toNat = k.toNat + 1 := by bv_omega
  refine ⟨by omega, fun i hi hik => ?_, fun i hi hki => ?_⟩
  · by_cases hik' : k.toNat = i
    · simpa [Vector.getElem_setIfInBounds, hik'] using hc
    · rw [Vector.getElem_setIfInBounds_ne _ hik']
      exact h.symbol i hi (by omega)
  · rw [Vector.getElem_setIfInBounds_ne _ (by omega)]
    exact h.free i hi (by omega)

/-- What FeedChar accepts keeps the hold buffer in order (R165). -/
theorem feedChar_keeps_pendingOk {hold hold' : Hold} {k k' : BitVec 3} {c : Byte} {bytes : List Byte}
    (h : feedChar hold k c = .accepted hold' k' bytes) (hp : PendingOk hold k) : PendingOk hold' k' := by
  rcases feedChar_cases hold k c with ⟨_, hf⟩ | ⟨_, hk, hf⟩ | ⟨_, _, hf⟩ | ⟨_, hf⟩ | ⟨hc, hk, hf⟩ | ⟨_, _, hf⟩ <;> rw [hf] at h
  · cases h; exact hp
  · cases h; exact hk ▸ hp
  · cases h
  · cases h
  · cases h; exact hp.push hc hk
  · rcases flushFull_cases hold _ with hx | ⟨_, _, _, _, hx⟩ <;> rw [hx] at h <;> cases h
    exact pendingOk_cleared

/-! ### What SM_FEED and SM_FINALIZE can do, with one shape for both -/

/-- The errors that SM_FEED and SM_FINALIZE raise (R203 to R205). -/
def Status.isContextError (e : Status) : Prop := e = .invalidCharacter ∨ e = .overflow ∨ e = .sequenceError

theorem Status.isContextError.code {e : Status} (h : e.isContextError) :
    statusCode e = 1 ∨ statusCode e = 2 ∨ statusCode e = 5 := by
  rcases h with rfl | rfl | rfl <;> decide

theorem Status.isContextError.code_ne_zero {e : Status} (h : e.isContextError) : statusCode e ≠ 0 := by
  rcases h with rfl | rfl | rfl <;> decide

theorem feedChar_failed {hold : Hold} {k : BitVec 3} {c : Byte} {e : Status} (h : feedChar hold k c = .failed e) :
    e.isContextError := by
  rcases feedChar_cases hold k c with ⟨_, hf⟩ | ⟨_, _, hf⟩ | ⟨_, _, hf⟩ | ⟨_, hf⟩ | ⟨_, _, hf⟩ | ⟨_, _, hf⟩ <;> rw [hf] at h
  · cases h
  · cases h
  · cases h; exact .inl rfl
  · cases h; exact .inl rfl
  · cases h
  · rcases flushFull_cases hold _ with hx | ⟨_, _, _, _, hx⟩ <;> rw [hx] at h <;> cases h
    exact .inr (.inl rfl)

/-- sm_state is not ERROR and agrees with hold_count (R26(b), R26(c)). -/
structure CountAgrees (q : SmState) (k : BitVec 3) : Prop where
  ne_error : q ≠ .error
  empty : q = .empty → k = 0
  accumulating : q = .accumulating → 1 ≤ k.toNat
  finished : q = .finished → k = 0

theorem countAgrees_finished : CountAgrees .finished 0 := ⟨nofun, nofun, nofun, fun _ => rfl⟩

theorem countAgrees_acceptingState (k : BitVec 3) : CountAgrees (acceptingState k) k := by
  by_cases hk : k = 0
  · subst hk
    exact ⟨nofun, fun _ => rfl, nofun, nofun⟩
  · rw [acceptingState_eq, if_neg hk]
    exact ⟨nofun, nofun, fun _ => by bv_omega, nofun⟩

/-- The writes of SM_FEED (n = 1) and of SM_FINALIZE (n = 0) when they succeed (R166, R176). -/
def advance (n : BitVec 32) (q : SmState) (hold : Hold) (k : BitVec 3) (bytes : List Byte) (s : State) : State :=
  { s with
    cmdStatus := statusCode .ok
    smState := q
    hold := hold
    holdCount := k
    inCount := s.inCount + n
    outCount := s.outCount + BitVec.ofNat 32 bytes.length
    outStream := s.outStream ++ bytes }

theorem feed_eq_advance (q : SmState) (hold : Hold) (k : BitVec 3) (bytes : List Byte) (s : State) :
    setStatus .ok (setSmState q (countInput (emitAll bytes (setPending hold k s)))) = advance 1 q hold k bytes s := by
  rw [emitAll_eq]; rfl

theorem finalize_eq_advance (q : SmState) (hold : Hold) (k : BitVec 3) (bytes : List Byte) (s : State) :
    setStatus .ok (setSmState q (setPending hold k (emitAll bytes s))) = advance 0 q hold k bytes s := by
  simp [emitAll_eq, advance, setStatus, setSmState, setPending]

/-- How SM_FEED and SM_FINALIZE end in state s: `byte` is the byte an error records, n what a success adds to in_count. -/
inductive StreamOutcome (byte : Byte) (n : BitVec 32) (s : State) : State → Prop
  /-- In ERROR: cmd_status only (R205(b)). -/
  | ignored (hq : s.smState = .error) : StreamOutcome byte n s (setStatus .sequenceError s)
  /-- A context error (R203, R204, R205(a)). -/
  | raised {e : Status} (hq : s.smState ≠ .error) (he : e.isContextError) : StreamOutcome byte n s (raiseContext e byte s)
  /-- Success (R166, R176). -/
  | advanced {q : SmState} {hold : Hold} {k : BitVec 3} {bytes : List Byte} (hq : s.smState ≠ .error) (hk : CountAgrees q k)
      (hp : PendingOk s.hold s.holdCount → PendingOk hold k) : StreamOutcome byte n s (advance n q hold k bytes s)

theorem State.accepting.ne_error {s : State} (h : s.accepting) : s.smState ≠ .error := by
  rcases h with h | h <;> simp [h]

theorem smFeed_outcome {c : Byte} {s t : State} (h : execSmFeed c s = .next t) : StreamOutcome c 1 s t := by
  rcases execSmFeed_cases c s with ⟨hq, hx⟩ | ⟨hq, hx⟩ | ⟨hq, e, hf, hx⟩ | ⟨hq, hold, k, bytes, hf, hx⟩ <;>
    rw [hx] at h <;> cases h
  · exact .ignored hq
  · exact .raised (by simp [hq]) (.inr (.inr rfl))
  · exact .raised hq.ne_error (feedChar_failed hf)
  · rw [feed_eq_advance]
    exact .advanced hq.ne_error (countAgrees_acceptingState k) (feedChar_keeps_pendingOk hf)

theorem smFinalize_outcome {s t : State} (h : execSmFinalize s = .next t) : StreamOutcome 0x00 0 s t := by
  rcases execSmFinalize_cases s with ⟨hq, hx⟩ | ⟨hq, hx⟩ | ⟨hq, hk, hx⟩ | ⟨hq, _, _, hx⟩ | ⟨hq, _, bytes, _, hx⟩ <;>
    rw [hx] at h <;> cases h
  · exact .ignored hq
  · exact .raised (by simp [hq]) (.inr (.inr rfl))
  · have hs : setStatus .ok (setSmState .finished s) = advance 0 .finished s.hold s.holdCount [] s :=
      finalize_eq_advance .finished s.hold s.holdCount [] s
    rw [hs]
    exact .advanced hq.ne_error (hk ▸ countAgrees_finished) id
  · exact .raised hq.ne_error (.inr (.inl rfl))
  · rw [finalize_eq_advance]
    exact .advanced hq.ne_error countAgrees_finished fun _ => pendingOk_cleared

/-! ### What every command, word, event and step can do -/

/-- The codes of R200 that are ever produced (R208). -/
abbrev isProduced (code : BitVec 4) : Prop := code = 0 ∨ code = 1 ∨ code = 2 ∨ code = 5 ∨ code = 6

theorem setResult_sameContext (data : BitVec 40) (len : BitVec 3) (s : State) : SameContext s (setResult data len s) :=
  ⟨rfl, rfl, rfl, rfl, rfl, rfl, rfl, rfl, rfl⟩

theorem raiseStateless_sameContext (e : Status) (s : State) : SameContext s (raiseStateless e s) :=
  ⟨rfl, rfl, rfl, rfl, rfl, rfl, rfl, rfl, rfl⟩

theorem setStatus_sameContext (e : Status) (s : State) : SameContext s (setStatus e s) :=
  ⟨rfl, rfl, rfl, rfl, rfl, rfl, rfl, rfl, rfl⟩

theorem SameContext.sameErrorRecord {s t : State} (h : SameContext s t) : SameErrorRecord s t :=
  ⟨h.errCode, h.errByte, h.errPos⟩

/-- A stateless command leaves the context alone, reports a produced code and at most five units (R39). -/
theorem exec_stateless_frame {i : Instr} {s t : State} (hi : i.stateless = true) (h : exec i s = .next t) :
    SameContext s t ∧ isProduced t.cmdStatus ∧ t.resLen.toNat ≤ 5 := by
  rcases exec_stateless_cases i hi with ⟨data, len, hlen, hx⟩ | ⟨e, he, hx⟩ <;> rw [hx] at h <;> cases h
  · exact ⟨setResult_sameContext _ _ _, .inl rfl, hlen⟩
  · refine ⟨raiseStateless_sameContext _ _, ?_, Nat.zero_le _⟩
    show isProduced (statusCode e)
    rcases he with rfl | rfl | rfl <;> decide

/-- Every way a command ends. -/
theorem exec_outcome {i : Instr} {s t : State} (h : exec i s = .next t) :
    (i.stateless = true ∧ SameContext s t ∧ isProduced t.cmdStatus ∧ t.resLen.toNat ≤ 5) ∨
    (i = .smInit ∧ t = setStatus .ok (clearContext s)) ∨
    (∃ c, i = .smFeed c ∧ StreamOutcome c 1 s t) ∨
    (i = .smFinalize ∧ StreamOutcome 0x00 0 s t) := by
  cases i with
  | smInit => cases h; exact .inr (.inl ⟨rfl, rfl⟩)
  | smFeed c => exact .inr (.inr (.inl ⟨c, rfl, smFeed_outcome h⟩))
  | smFinalize => exact .inr (.inr (.inr ⟨rfl, smFinalize_outcome h⟩))
  | alphaEnc v => exact .inl ⟨rfl, exec_stateless_frame rfl h⟩
  | alphaDec c => exact .inl ⟨rfl, exec_stateless_frame rfl h⟩
  | encGroup n value => exact .inl ⟨rfl, exec_stateless_frame rfl h⟩
  | decGroup s0 s1 s2 s3 s4 => exact .inl ⟨rfl, exec_stateless_frame rfl h⟩

/-- Every way a command word ends (R81, R206). -/
theorem acceptCommand_outcome {w : CommandWord} {s t : State} (h : acceptCommand w s = .next t) :
    (∃ i, decode w = .command i ∧ exec i s = .next t) ∨ t = raiseStateless .illegalCommand s := by
  unfold acceptCommand at h
  split at h
  · next i hi => exact .inl ⟨i, hi, h⟩
  · cases h; exact .inr rfl

/-- A refused word writes the result registers and cmd_status only (R206). -/
theorem acceptCommand_refused_sameContext {w : CommandWord} {s t : State} (hw : ∀ i, decode w ≠ .command i)
    (h : acceptCommand w s = .next t) : SameContext s t := by
  rw [acceptCommand_of_no_command hw] at h
  cases h
  exact raiseStateless_sameContext _ _

/-! ### The invariant -/

/-- The invariant reads the context, cmd_status and res_len, and nothing else. -/
theorem State.Inv.of_sameContext {s t : State} (h : s.Inv) (hc : SameContext s t) (hstatus : isProduced t.cmdStatus)
    (hlen : t.resLen.toNat ≤ 5) : t.Inv := by
  obtain ⟨_, _, _, q, hold, k, ec, eb, ep, _, oc, os, _⟩ := t
  obtain ⟨rfl, rfl, rfl, rfl, rfl, rfl, -, rfl, rfl⟩ := hc
  exact { h with cmdStatus_code := hstatus, resLen_le := hlen }

theorem inv_reset : State.reset.Inv := by
  obtain ⟨hle, hsym, hfree⟩ := (pendingOk_iff State.reset).1 pendingOk_cleared
  exact ⟨hle, fun _ => rfl, nofun, nofun, by decide, hsym, hfree, .inl rfl, .inl rfl, fun _ => ⟨rfl, rfl⟩, Nat.zero_le _, rfl⟩

theorem State.Inv.setStatus {s : State} (h : s.Inv) {e : Status} (he : isProduced (statusCode e)) :
    (Machine.setStatus e s).Inv :=
  h.of_sameContext (setStatus_sameContext e s) he h.resLen_le

/-- The context that SM_INIT creates is the one after reset (R232). -/
theorem State.Inv.clearContext {s : State} (h : s.Inv) : (Machine.clearContext s).Inv :=
  inv_reset.of_sameContext ⟨rfl, rfl, rfl, rfl, rfl, rfl, rfl, rfl, rfl⟩ h.cmdStatus_code h.resLen_le

theorem inv_assertReset (s : State) : (assertReset s).Inv :=
  inv_reset.of_sameContext ⟨rfl, rfl, rfl, rfl, rfl, rfl, rfl, rfl, rfl⟩ (.inl rfl) (Nat.zero_le _)

/-- A context error is recorded with sm_state ERROR, which asks nothing of hold_count (R26(d), R26(e)). -/
theorem State.Inv.raiseContext {s : State} (h : s.Inv) {e : Status} (he : e.isContextError) (byte : Byte) :
    (Machine.raiseContext e byte s).Inv := by
  exact { h with
    empty_none := nofun
    accumulating_some := nofun
    finished_none := nofun
    errCode_iff := iff_of_false he.code_ne_zero (fun hq => hq rfl)
    cmdStatus_code := .inr (he.code.imp_right (.imp_right .inl))
    errCode_code := .inr he.code
    noError_clear := fun hz => absurd hz he.code_ne_zero }

/-- A success moves on with hold and hold_count in order and in agreement with sm_state, and counts what it emits (R26, R27, R30). -/
theorem State.Inv.advance {s : State} (h : s.Inv) (n : BitVec 32) {q : SmState} {hold : Hold} {k : BitVec 3}
    (bytes : List Byte) (hq : s.smState ≠ .error) (hk : CountAgrees q k) (hp : PendingOk hold k) :
    (Machine.advance n q hold k bytes s).Inv := by
  obtain ⟨hle, hsym, hfree⟩ := (pendingOk_iff (Machine.advance n q hold k bytes s)).1 hp
  have herr : s.errCode = 0 := h.errCode_iff.2 hq
  exact { h with
    holdCount_le := hle
    empty_none := hk.empty
    accumulating_some := hk.accumulating
    finished_none := hk.finished
    errCode_iff := iff_of_true herr hk.ne_error
    held_symbols := hsym
    free_zero := hfree
    cmdStatus_code := .inl rfl
    outCount_eq := by simp [Machine.advance, h.outCount_eq, BitVec.ofNat_add] }

theorem StreamOutcome.keeps_inv {byte : Byte} {n : BitVec 32} {s t : State} (ht : StreamOutcome byte n s t) (h : s.Inv) :
    t.Inv := by
  cases ht with
  | ignored _ => exact h.setStatus (by decide)
  | raised _ he => exact h.raiseContext he byte
  | advanced hq hk hp => exact h.advance n _ hq hk (hp h.pendingOk)

theorem exec_keeps_inv {i : Instr} {s t : State} (h : s.Inv) (ht : exec i s = .next t) : t.Inv := by
  rcases exec_outcome ht with ⟨_, hc, hstatus, hlen⟩ | ⟨_, rfl⟩ | ⟨_, _, ho⟩ | ⟨_, ho⟩
  · exact h.of_sameContext hc hstatus hlen
  · exact h.clearContext.setStatus (.inl rfl)
  · exact ho.keeps_inv h
  · exact ho.keeps_inv h

theorem acceptCommand_keeps_inv {w : CommandWord} {s t : State} (h : s.Inv) (ht : acceptCommand w s = .next t) : t.Inv := by
  rcases acceptCommand_outcome ht with ⟨_, _, hi⟩ | rfl
  · exact exec_keeps_inv h hi
  · exact h.of_sameContext (raiseStateless_sameContext _ _) (.inr (.inr (.inr (.inr rfl)))) (Nat.zero_le _)

theorem acceptEvent_keeps_inv {e : HostEvent} {s t : State} (h : s.Inv) (ht : acceptEvent e s = .next t) : t.Inv := by
  cases e with
  | command w => exact acceptCommand_keeps_inv h ht
  | reset => cases ht; exact inv_assertReset s

/-- The events that wait on the port are no part of the invariant. -/
theorem State.Inv.withPort {s : State} (h : s.Inv) (p : List HostEvent) : State.Inv { s with port := p } := { h with }

/-- With no event waiting the block holds its state (R218; notes/assumptions/1.md). -/
theorem step_of_idle {s : State} (h : s.port = []) : step s = .next s := by
  simp only [step, takeEvent, h]

theorem step_keeps_inv {s t : State} (h : s.Inv) (ht : step s = .next t) : t.Inv := by
  cases hp : s.port with
  | nil =>
    rw [step_of_idle hp] at ht
    cases ht
    exact h
  | cons e rest =>
    rw [step_of_port hp] at ht
    exact acceptEvent_keeps_inv (h.withPort rest) ht

/-- Settles O13: a step is one event, an event one of the named updates, and each update keeps the invariant. -/
theorem everyStepKeepsTheInvariant : Obligations.EveryStepKeepsTheInvariant :=
  fun _ _ => step_keeps_inv

/-- Settles O12. -/
theorem invariantHoldsAtReset : Obligations.InvariantHoldsAtReset := inv_reset

/-! ### The error record -/

/-- With an error recorded the context is in ERROR, where SM_FEED and SM_FINALIZE write cmd_status only (R205(b)). -/
theorem StreamOutcome.sameContext_of_error {byte : Byte} {n : BitVec 32} {s t : State} (ht : StreamOutcome byte n s t)
    (hq : s.smState = .error) : SameContext s t := by
  cases ht with
  | ignored _ => exact setStatus_sameContext _ _
  | raised hne _ => exact absurd hq hne
  | advanced hne _ _ => exact absurd hq hne

/-- An error reported outside ERROR is recorded (R28). -/
theorem StreamOutcome.records_error {byte : Byte} {n : BitVec 32} {s t : State} (ht : StreamOutcome byte n s t)
    (hq : s.smState ≠ .error) (hstatus : t.cmdStatus ≠ 0) :
    t.errCode = t.cmdStatus ∧ t.errByte = byte ∧ t.errPos = s.inCount ∧ t.smState = .error := by
  cases ht with
  | ignored he => exact absurd he hq
  | raised _ _ => exact ⟨rfl, rfl, rfl, rfl⟩
  | advanced _ _ _ => exact absurd rfl hstatus

/-- SM_FEED and SM_FINALIZE write no error record when they report none. -/
theorem StreamOutcome.sameErrorRecord_of_ok {byte : Byte} {n : BitVec 32} {s t : State} (ht : StreamOutcome byte n s t)
    (hstatus : t.cmdStatus = 0) : SameErrorRecord s t := by
  cases ht with
  | ignored _ => exact (setStatus_sameContext _ _).sameErrorRecord
  | raised _ he => exact absurd hstatus he.code_ne_zero
  | advanced _ _ _ => exact ⟨rfl, rfl, rfl⟩

theorem exec_sameContext_of_error {i : Instr} {s t : State} (hq : s.smState = .error) (hi : i ≠ .smInit)
    (ht : exec i s = .next t) : SameContext s t := by
  rcases exec_outcome ht with ⟨_, hc, _⟩ | ⟨hx, _⟩ | ⟨_, _, ho⟩ | ⟨_, ho⟩
  · exact hc
  · exact absurd hx hi
  · exact ho.sameContext_of_error hq
  · exact ho.sameContext_of_error hq

theorem exec_sameErrorRecord {i : Instr} {s t : State} (hi : i ≠ .smInit) (ht : exec i s = .next t)
    (h : i.stateless = true ∨ t.cmdStatus = 0) : SameErrorRecord s t := by
  rcases exec_outcome ht with ⟨_, hc, _⟩ | ⟨hx, _⟩ | ⟨_, rfl, ho⟩ | ⟨rfl, ho⟩
  · exact hc.sameErrorRecord
  · exact absurd hx hi
  · exact ho.sameErrorRecord_of_ok (h.resolve_left nofun)
  · exact ho.sameErrorRecord_of_ok (h.resolve_left nofun)

/-- Settles O38, by the outcomes of each command. -/
theorem firstContextErrorIsKept : Obligations.FirstContextErrorIsKept := by
  refine ⟨fun s t w h herr hw ht => ?_, fun s t c h herr ht => ?_, fun s t h herr ht => ?_,
    fun s t i hi ht => exec_sameErrorRecord hi ht, fun s t w hw ht => (acceptCommand_refused_sameContext hw ht).sameErrorRecord⟩
  · have hq : s.smState = .error := of_not_not (mt h.errCode_iff.2 herr)
    rcases acceptCommand_outcome ht with ⟨i, hi, hx⟩ | rfl
    · exact (exec_sameContext_of_error hq (fun e => hw (e ▸ hi)) hx).sameErrorRecord
    · exact (raiseStateless_sameContext _ _).sameErrorRecord
  · exact (smFeed_outcome ht).records_error (h.errCode_iff.1 herr)
  · exact (smFinalize_outcome ht).records_error (h.errCode_iff.1 herr)

/-! ### The stateless commands -/

/-- Settles O39: a stateless command makes the same two writes in every state. -/
theorem statelessCommandsKeepTheContext : Obligations.StatelessCommandsKeepTheContext := by
  intro i s s' hi
  rcases exec_stateless_cases i hi with ⟨data, len, _, hx⟩ | ⟨e, _, hx⟩
  · exact ⟨_, _, hx s, hx s', setResult_sameContext _ _ _, rfl, rfl, rfl⟩
  · exact ⟨_, _, hx s, hx s', raiseStateless_sameContext _ _, rfl, rfl, rfl⟩

/-! ### The input count -/

/-- A success of SM_FEED or SM_FINALIZE adds n to in_count. -/
theorem StreamOutcome.inCount_of_ok {byte : Byte} {n : BitVec 32} {s t : State} (ht : StreamOutcome byte n s t)
    (hstatus : t.cmdStatus = 0) : t.inCount = s.inCount + n := by
  cases ht with
  | ignored _ => cases hstatus
  | raised _ he => exact absurd hstatus he.code_ne_zero
  | advanced _ _ _ => rfl

/-- An error of SM_FEED or SM_FINALIZE leaves in_count. -/
theorem StreamOutcome.inCount_of_error {byte : Byte} {n : BitVec 32} {s t : State} (ht : StreamOutcome byte n s t)
    (hstatus : t.cmdStatus ≠ 0) : t.inCount = s.inCount := by
  cases ht with
  | ignored _ => rfl
  | raised _ _ => rfl
  | advanced _ _ _ => exact absurd rfl hstatus

/-- InvalidCharacter and Overflow are recorded at the position of the character that raised them. -/
theorem StreamOutcome.errPos_eq_inCount {byte : Byte} {n : BitVec 32} {s t : State} (ht : StreamOutcome byte n s t)
    (hstatus : t.cmdStatus = 1 ∨ t.cmdStatus = 2) : t.errPos = t.inCount := by
  cases ht with
  | ignored _ => rcases hstatus with hx | hx <;> cases hx
  | raised _ _ => rfl
  | advanced _ _ _ => rcases hstatus with hx | hx <;> cases hx

theorem exec_inCount {i : Instr} {s t : State} (ht : exec i s = .next t) (hinit : i ≠ .smInit) (hfeed : ∀ c, i ≠ .smFeed c) :
    t.inCount = s.inCount := by
  rcases exec_outcome ht with ⟨_, hc, _⟩ | ⟨hx, _⟩ | ⟨c, hx, _⟩ | ⟨_, ho⟩
  · exact hc.inCount
  · exact absurd hx hinit
  · exact absurd hx (hfeed c)
  · by_cases hstatus : t.cmdStatus = 0
    · exact (ho.inCount_of_ok hstatus).trans (BitVec.add_zero _)
    · exact ho.inCount_of_error hstatus

/-- Settles O45, by the outcomes of each command. -/
theorem inputCountCountsConsumedCharacters : Obligations.InputCountCountsConsumedCharacters := by
  refine ⟨fun s t c ht => ?_, fun s t ht => ?_, fun s t ht => ?_, fun s t i => exec_inCount,
    fun s t w hw ht => (acceptCommand_refused_sameContext hw ht).inCount⟩
  · have ho := smFeed_outcome ht
    refine ⟨fun hstatus => ?_, ho.inCount_of_error, ho.errPos_eq_inCount⟩
    rw [ho.inCount_of_ok hstatus]
    exact BitVec.toNat_add _ _
  · cases ht; rfl
  · cases ht; rfl

/-! ### The read port -/

/-- STATUS is the sum of its fields at their bit positions (R35). -/
theorem statusRegister_toNat (s : State) :
    (statusRegister s).toNat = s.cmdStatus.toNat + s.errCode.toNat * 2 ^ 4 + (smStateCode s.smState).toNat * 2 ^ 8 +
      s.holdCount.toNat * 2 ^ 10 + s.resLen.toNat * 2 ^ 13 := by
  simp only [statusRegister, toNat_append_eq, BitVec.toNat_ofNat]
  omega

/-- The first four slots of the hold buffer, slot 0 in the top byte (R35). -/
theorem holdRegister_toNat (s : State) :
    (readPort s 0x3).toNat =
      s.hold[0].toNat * 2 ^ 24 + s.hold[1].toNat * 2 ^ 16 + s.hold[2].toNat * 2 ^ 8 + s.hold[3].toNat := by
  show (s.hold[0] ++ s.hold[1] ++ s.hold[2] ++ s.hold[3]).toNat = _
  simp only [toNat_append_eq]
  omega

/-- The low 32 bits of res_data (R35). -/
theorem resultLowRegister_toNat (s : State) : (readPort s 0x1).toNat = s.resData.toNat % 2 ^ 32 := by
  show (s.resData.extractLsb' 0 32).toNat = _
  simp [BitVec.extractLsb'_toNat]

/-- The high 8 bits of res_data (R35). -/
theorem resultHighRegister_toNat (s : State) : (readPort s 0x2).toNat = s.resData.toNat / 2 ^ 32 := by
  have := s.resData.isLt
  show ((s.resData.extractLsb' 32 8).setWidth 32).toNat = _
  simp only [BitVec.toNat_setWidth, BitVec.extractLsb'_toNat, Nat.shiftRight_eq_div_pow]
  omega

/-- A byte register reads with 24 zero bits above it. -/
theorem byteRegister_toNat (b : Byte) : (b.setWidth 32).toNat = b.toNat :=
  BitVec.toNat_setWidth_of_le (by decide)

/-- The reserved addresses read 0 (R35). -/
theorem readPort_reserved (s : State) {a : BitVec 4} (ha : 9 ≤ a.toNat) : readPort s a = 0 := by
  unfold readPort
  split
  case h_10 => rfl
  all_goals omega

theorem readPort_reset : ∀ a : BitVec 4, readPort State.reset a = 0 := by decide

/-- Settles O11, address by address. -/
theorem readPortMapsTheRegisters : Obligations.ReadPortMapsTheRegisters :=
  ⟨fun s => ⟨statusRegister_toNat s, resultLowRegister_toNat s, resultHighRegister_toNat s, holdRegister_toNat s,
    byteRegister_toNat s.hold[4], byteRegister_toNat s.errByte, rfl, rfl, rfl, fun _ => readPort_reserved s⟩, readPort_reset⟩

end Sys2Proof.Machine

/-! PROOFS. The family of spec/20_memory.md: the contents of the two alphabet ROMs, and that each reads the other backwards. -/

namespace Sys2Proof.Machine

/-! ### Reads of one address -/

/-- A FWD address that holds an entry (R50). -/
theorem memRead_fwd_of_lt {a : Nat} (ha : a < 85) : memRead .fwd a = some (.code (romFwd ⟨a, ha⟩)) :=
  dif_pos ha

/-- A FWD address that holds none (R51). -/
theorem memRead_fwd_of_ge {a : Nat} (ha : 85 ≤ a) : memRead .fwd a = none :=
  dif_neg (Nat.not_lt.2 ha)

/-- Every INV address is a byte and holds its inverse entry (R50). -/
theorem memRead_inv_toNat (c : Byte) : memRead .inv c.toNat = some (.inverse (romInv c)) := by
  simp only [memRead, if_pos c.isLt, BitVec.ofNat_toNat, BitVec.setWidth_eq]

/-! ### The two ROMs are mutually inverse -/

/-- ROM_INV(ROM_FWD(v)) = Valid(v) (R52). -/
@[simp] theorem romInv_romFwd (d : Digit) : romInv (romFwd d) = some d := by
  simp only [romInv_of_symbol (romFwd_isSymbol d), romFwd_toNat, Nat.add_sub_cancel]

/-- ROM_FWD gives a symbol back from its digit. -/
theorem romFwd_of_symbol {c : Byte} (hc : isSymbol c) : romFwd ⟨c.toNat - 33, by omega⟩ = c :=
  BitVec.eq_of_toNat_eq ((romFwd_toNat _).trans (Nat.sub_add_cancel hc.1))

/-- The valid entries of ROM_INV are the codes of ROM_FWD, each at its own digit (R52). -/
theorem romInv_eq_some_iff {c : Byte} {d : Digit} : romInv c = some d ↔ romFwd d = c := by
  constructor
  · intro h
    by_cases hc : isSymbol c
    · rw [romInv_of_symbol hc] at h
      cases h
      exact romFwd_of_symbol hc
    · rw [romInv_of_not_symbol hc] at h
      cases h
  · rintro rfl
    exact romInv_romFwd d

/-- Settles O14: the reads address by address, then the inverse both ways. -/
theorem alphabetRomContents : Obligations.AlphabetRomContents := by
  refine ⟨fun a ha => memRead_fwd_of_lt (Nat.lt_succ_of_le ha), fun a ha _ => memRead_fwd_of_ge ha, fun c hc => ?_,
    fun c hc => ?_, romInv_romFwd, fun _ _ => romInv_eq_some_iff.1⟩
  · exact ⟨⟨c.toNat - 33, by omega⟩, by rw [memRead_inv_toNat, romInv_of_symbol hc], rfl⟩
  · rw [memRead_inv_toNat, romInv_of_not_symbol hc]

end Sys2Proof.Machine

/-! PROOFS. The family of spec/30_encoding.md: the decoder reads back every encoded command, reads a command from no other word,
and refuses the reserved opcodes. -/

namespace Sys2Proof

/-! ### The operand in the low bits of DATA -/

/-- DATA whose bits from k up are 0 is its low k bits zero-extended (R74, R76, R77, R79). -/
theorem setWidth_lowBits {k m : Nat} (hkm : k + m = 40) {d : BitVec 40} (h : d.extractLsb' k m = 0) :
    (d.extractLsb' 0 k).setWidth 40 = d := by
  have hhigh : d.toNat / 2 ^ k % 2 ^ m = 0 := by
    simpa [BitVec.extractLsb'_toNat, Nat.shiftRight_eq_div_pow] using congrArg BitVec.toNat h
  have hlt : d.toNat / 2 ^ k < 2 ^ m := Nat.div_lt_of_lt_mul (by rw [← Nat.pow_add, hkm]; exact d.isLt)
  have hlow : d.toNat < 2 ^ k := by
    rw [Nat.mod_eq_of_lt hlt] at hhigh
    exact (Nat.div_eq_zero_iff_lt (Nat.two_pow_pos k)).1 hhigh
  apply BitVec.eq_of_toNat_eq
  simp [BitVec.extractLsb'_toNat, Nat.mod_eq_of_lt hlow, Nat.mod_eq_of_lt d.isLt]

/-- The bits above a zero-extended operand are 0. -/
theorem highBits_setWidth {k m : Nat} (v : BitVec k) : (v.setWidth 40).extractLsb' k m = 0 := by
  apply BitVec.eq_of_getLsbD_eq
  intro i hi
  simp

/-- The operand reads back from its zero extension. -/
theorem lowBits_setWidth {k : Nat} (hk : k ≤ 40) (v : BitVec k) : (v.setWidth 40).extractLsb' 0 k = v := by
  rw [← BitVec.setWidth_eq_extractLsb' hk, BitVec.setWidth_setWidth_of_le _ hk, BitVec.setWidth_eq]

/-- The padding test of the decoder (R81) is the one on the group value (R74): with n = 4 there is no padding. -/
theorem encGroup_padding_iff (n : BitVec 4) (value : GroupValue) :
    (1 ≤ n.toNat ∧ n.toNat ≤ 4 ∧ (n = 4 ∨ (value.setWidth 40).toNat % 2 ^ (8 * (4 - n.toNat)) = 0)) ↔
      Instr.groupOperandLegal n value = true := by
  have hv : (value.setWidth 40).toNat = value.toNat := BitVec.toNat_setWidth_of_le (by decide)
  have hfour : n = 4 → value.toNat % 2 ^ (8 * (4 - n.toNat)) = 0 := by
    rintro rfl
    exact Nat.mod_one _
  rw [Instr.groupOperandLegal, decide_eq_true_eq, hv, or_iff_right_of_imp hfour]

/-- The byte of five packed bytes at each position (R75). -/
theorem decGroup_fields (s0 s1 s2 s3 s4 : Byte) :
    let d : BitVec 40 := s0 ++ s1 ++ s2 ++ s3 ++ s4
    d.extractLsb' 32 8 = s0 ∧ d.extractLsb' 24 8 = s1 ∧ d.extractLsb' 16 8 = s2 ∧ d.extractLsb' 8 8 = s3 ∧
      d.extractLsb' 0 8 = s4 := by
  refine ⟨?_, ?_, ?_, ?_, ?_⟩
  all_goals
    apply BitVec.eq_of_toNat_eq
    simp only [BitVec.extractLsb'_toNat, Nat.shiftRight_eq_div_pow, toNat_append_eq]
    omega

/-- DATA is its five bytes packed (R75). -/
theorem decGroup_pack (d : BitVec 40) :
    d.extractLsb' 32 8 ++ d.extractLsb' 24 8 ++ d.extractLsb' 16 8 ++ d.extractLsb' 8 8 ++ d.extractLsb' 0 8 = d := by
  apply BitVec.eq_of_toNat_eq
  simp only [BitVec.extractLsb'_toNat, Nat.shiftRight_eq_div_pow, toNat_append_eq]
  omega

/-! ### Decoding an encoded command -/

/-- Settles O1, command by command: the word carries the command's OP, and that OP's decoder reads each operand back. -/
theorem decodeOfEncodeIsTheInstruction : Obligations.DecodeOfEncodeIsTheInstruction := by
  intro i hi
  simp only [decode, encode, opField_packCommand, argField_packCommand, dataField_packCommand]
  cases i with
  | alphaEnc v =>
    show decodeAlphaEnc 0 (v.setWidth 40) = _
    rw [decodeAlphaEnc, if_pos ⟨rfl, highBits_setWidth v⟩, lowBits_setWidth (by decide), if_pos (of_decide_eq_true hi)]
  | alphaDec c =>
    show decodeAlphaDec 0 (c.setWidth 40) = _
    rw [decodeAlphaDec, if_pos ⟨rfl, highBits_setWidth c⟩, lowBits_setWidth (by decide)]
  | encGroup n value =>
    show decodeEncGroup n (value.setWidth 40) = _
    rw [decodeEncGroup, if_pos (highBits_setWidth value), lowBits_setWidth (by decide),
      if_pos ((encGroup_padding_iff n value).2 hi)]
  | decGroup s0 s1 s2 s3 s4 =>
    show decodeDecGroup 0 (s0 ++ s1 ++ s2 ++ s3 ++ s4) = _
    obtain ⟨h0, h1, h2, h3, h4⟩ := decGroup_fields s0 s1 s2 s3 s4
    rw [decodeDecGroup, if_pos rfl, h0, h1, h2, h3, h4]
  | smInit => rfl
  | smFeed c =>
    show decodeSmFeed 0 (c.setWidth 40) = _
    rw [decodeSmFeed, if_pos ⟨rfl, highBits_setWidth c⟩, lowBits_setWidth (by decide)]
  | smFinalize => rfl

/-! ### Encoding a decoded command -/

/-- The command i is well-formed and its word has these fields. -/
structure Instr.HasFields (i : Instr) (op arg : BitVec 4) (d : BitVec 40) : Prop where
  wellFormed : i.wellFormed = true
  op_eq : opOf i = op
  arg_eq : argOf i = arg
  data_eq : dataOf i = d

/-- A check of the decoder was met if the word decodes to a command. -/
theorem eq_command_of_ite {p : Prop} [Decidable p] {x : Decoded} {r : IllegalReason} {i : Instr}
    (h : (if p then x else .illegal r) = .command i) : p ∧ x = .command i := by
  split at h
  case isTrue hp => exact ⟨hp, h⟩
  case isFalse => cases h

section
variable {arg : BitVec 4} {d : BitVec 40} {i : Instr}

theorem decodeAlphaEnc_fields (h : decodeAlphaEnc arg d = .command i) : i.HasFields 0x1 arg d := by
  obtain ⟨⟨rfl, hhigh⟩, hrange⟩ := eq_command_of_ite h
  obtain ⟨hv, ⟨⟩⟩ := eq_command_of_ite hrange
  exact ⟨decide_eq_true hv, rfl, rfl, setWidth_lowBits rfl hhigh⟩

theorem decodeAlphaDec_fields (h : decodeAlphaDec arg d = .command i) : i.HasFields 0x2 arg d := by
  obtain ⟨⟨rfl, hhigh⟩, ⟨⟩⟩ := eq_command_of_ite h
  exact ⟨rfl, rfl, rfl, setWidth_lowBits rfl hhigh⟩

theorem decodeEncGroup_fields (h : decodeEncGroup arg d = .command i) : i.HasFields 0x3 arg d := by
  obtain ⟨hhigh, hrange⟩ := eq_command_of_ite h
  obtain ⟨hlegal, ⟨⟩⟩ := eq_command_of_ite hrange
  have hd : (d.extractLsb' 0 32).setWidth 40 = d := setWidth_lowBits rfl hhigh
  exact ⟨(encGroup_padding_iff arg _).1 (by rwa [hd]), rfl, rfl, hd⟩

theorem decodeDecGroup_fields (h : decodeDecGroup arg d = .command i) : i.HasFields 0x4 arg d := by
  obtain ⟨rfl, ⟨⟩⟩ := eq_command_of_ite h
  exact ⟨rfl, rfl, rfl, decGroup_pack d⟩

theorem decodeSmInit_fields (h : decodeSmInit arg d = .command i) : i.HasFields 0x5 arg d := by
  obtain ⟨⟨rfl, rfl⟩, ⟨⟩⟩ := eq_command_of_ite h
  exact ⟨rfl, rfl, rfl, rfl⟩

theorem decodeSmFeed_fields (h : decodeSmFeed arg d = .command i) : i.HasFields 0x6 arg d := by
  obtain ⟨⟨rfl, hhigh⟩, ⟨⟩⟩ := eq_command_of_ite h
  exact ⟨rfl, rfl, rfl, setWidth_lowBits rfl hhigh⟩

theorem decodeSmFinalize_fields (h : decodeSmFinalize arg d = .command i) : i.HasFields 0x7 arg d := by
  obtain ⟨⟨rfl, rfl⟩, ⟨⟩⟩ := eq_command_of_ite h
  exact ⟨rfl, rfl, rfl, rfl⟩

end

/-- A decoded command has legal operands and the fields of the word it was read from (R81). -/
theorem decode_fields {w : CommandWord} {i : Instr} (h : decode w = .command i) :
    i.HasFields (opField w) (argField w) (dataField w) := by
  unfold decode at h
  split_ifs at h with hop hop hop hop hop hop hop
  · exact hop ▸ decodeAlphaEnc_fields h
  · exact hop ▸ decodeAlphaDec_fields h
  · exact hop ▸ decodeEncGroup_fields h
  · exact hop ▸ decodeDecGroup_fields h
  · exact hop ▸ decodeSmInit_fields h
  · exact hop ▸ decodeSmFeed_fields h
  · exact hop ▸ decodeSmFinalize_fields h

/-- A word that decodes to a command is that command's word: no two words decode to one command. -/
theorem encode_of_decode {w : CommandWord} {i : Instr} (h : decode w = .command i) : encode i = w := by
  obtain ⟨_, hop, harg, hdata⟩ := decode_fields h
  rw [encode, hop, harg, hdata, packCommand_fields]

/-- The decoder reads a command from that command's own word and from no other (R81). -/
theorem decode_eq_command_iff (w : CommandWord) (i : Instr) :
    decode w = .command i ↔ i.wellFormed = true ∧ encode i = w := by
  constructor
  · exact fun h => ⟨(decode_fields h).wellFormed, encode_of_decode h⟩
  · rintro ⟨hi, rfl⟩
    exact decodeOfEncodeIsTheInstruction i hi

/-! ### The spec's words as numbers -/

/-- The model's operand check is R73's, command by command. -/
theorem Instr.wellFormed_iff (i : Instr) : i.wellFormed = true ↔ legalOperands i := by
  cases i with
  | alphaEnc v => exact decide_eq_true_iff
  | encGroup n value => exact groupOperandLegal_iff n value
  | alphaDec _ => exact iff_of_true rfl trivial
  | decGroup _ _ _ _ _ => exact iff_of_true rfl trivial
  | smInit => exact iff_of_true rfl trivial
  | smFeed _ => exact iff_of_true rfl trivial
  | smFinalize => exact iff_of_true rfl trivial

/-- The word of a command is its number (R70, R71, R74 to R79). -/
theorem encode_toNat (i : Instr) : (encode i).toNat = commandNumber i := by
  rw [encode, packCommand_toNat]
  cases i
  all_goals
    simp only [opOf, argOf, dataOf, commandNumber, toNat_append_eq, BitVec.toNat_setWidth, BitVec.ofNat_eq_ofNat,
      BitVec.toNat_ofNat]
    omega

/-- Settles O2: a command's word is its number, and the decoder reads the command from that word only. -/
theorem decoderReadsExactlyTheSpecsWords : Obligations.DecoderReadsExactlyTheSpecsWords := by
  intro w i
  rw [decode_eq_command_iff, Instr.wellFormed_iff, ← encode_toNat, eq_comm (a := w.toNat), BitVec.toNat_inj]

/-! ### The reserved opcodes -/

/-- The OP values that R71 assigns. -/
theorem opOf_range (i : Instr) : 1 ≤ (opOf i).toNat ∧ (opOf i).toNat ≤ 7 := by
  cases i <;> simp [opOf]

/-- Settles O4: every command has an OP in 1..7, so a word with a reserved OP decodes to none and raises IllegalCommand. -/
theorem reservedOpcodesAreRefused : Obligations.ReservedOpcodesAreRefused := by
  intro s w hw
  have hnone : ∀ i, decode w ≠ .command i := by
    intro i h
    have hop : (opOf i).toNat = w.toNat / 2 ^ 44 := (congrArg BitVec.toNat (decode_fields h).op_eq).trans (opField_toNat w)
    have := opOf_range i
    omega
  exact Machine.acceptCommand_of_no_command hnone s

end Sys2Proof

/-! PROOFS. The family of spec/40_alphabet_rom.md: which words are the commands ALPHA_ENC and ALPHA_DEC, and what these write. -/

namespace Sys2Proof

/-! ### The words with one OP -/

/-- A decoded command has the OP of its word (R81). -/
theorem opOf_toNat_of_decode {w : CommandWord} {i : Instr} (h : decode w = .command i) : (opOf i).toNat = w.toNat / 2 ^ 44 :=
  (congrArg BitVec.toNat (decode_fields h).op_eq).trans (opField_toNat w)

/-- OP 0x1 is the OP of ALPHA_ENC only (R71). -/
theorem eq_alphaEnc_of_opOf {i : Instr} (h : (opOf i).toNat = 1) : ∃ v, i = .alphaEnc v := by
  cases i
  case alphaEnc v => exact ⟨v, rfl⟩
  all_goals cases h

/-- OP 0x2 is the OP of ALPHA_DEC only (R71). -/
theorem eq_alphaDec_of_opOf {i : Instr} (h : (opOf i).toNat = 2) : ∃ c, i = .alphaDec c := by
  cases i
  case alphaDec c => exact ⟨c, rfl⟩
  all_goals cases h

/-- A word with OP 0x1 is a command when its other 44 bits are a digit, and then ALPHA_ENC of that digit (R76, R101). -/
theorem decode_eq_command_iff_of_op_one {w : CommandWord} (hw : w.toNat / 2 ^ 44 = 1) (i : Instr) :
    decode w = .command i ↔ w.toNat % 2 ^ 44 ≤ 84 ∧ i = .alphaEnc (BitVec.ofNat 7 (w.toNat % 2 ^ 44)) := by
  constructor
  · intro h
    obtain ⟨v, rfl⟩ := eq_alphaEnc_of_opOf ((opOf_toNat_of_decode h).trans hw)
    obtain ⟨hv : v.toNat ≤ 84, hnum : w.toNat = 1 * 2 ^ 44 + v.toNat⟩ := (decoderReadsExactlyTheSpecsWords w _).1 h
    have hlow : w.toNat % 2 ^ 44 = v.toNat := by omega
    exact ⟨hlow ▸ hv, by rw [hlow, BitVec.ofNat_toNat, BitVec.setWidth_eq]⟩
  · rintro ⟨hlow, rfl⟩
    have hv : (BitVec.ofNat 7 (w.toNat % 2 ^ 44)).toNat = w.toNat % 2 ^ 44 :=
      (BitVec.toNat_ofNat _ _).trans (Nat.mod_eq_of_lt (by omega))
    refine (decoderReadsExactlyTheSpecsWords w _).2 ⟨hv.trans_le hlow, ?_⟩
    rw [commandNumber, hv]
    omega

/-- A word with OP 0x2 is a command when its other 44 bits are a byte, and then ALPHA_DEC of that byte (R77, R103). -/
theorem decode_eq_command_iff_of_op_two {w : CommandWord} (hw : w.toNat / 2 ^ 44 = 2) (i : Instr) :
    decode w = .command i ↔ w.toNat % 2 ^ 44 < 256 ∧ i = .alphaDec (BitVec.ofNat 8 (w.toNat % 2 ^ 44)) := by
  constructor
  · intro h
    obtain ⟨c, rfl⟩ := eq_alphaDec_of_opOf ((opOf_toNat_of_decode h).trans hw)
    have hnum : w.toNat = 2 * 2 ^ 44 + c.toNat := ((decoderReadsExactlyTheSpecsWords w _).1 h).2
    have hlow : w.toNat % 2 ^ 44 = c.toNat := by omega
    exact ⟨hlow ▸ c.isLt, by rw [hlow, BitVec.ofNat_toNat, BitVec.setWidth_eq]⟩
  · rintro ⟨hlow, rfl⟩
    have hc : (BitVec.ofNat 8 (w.toNat % 2 ^ 44)).toNat = w.toNat % 2 ^ 44 :=
      (BitVec.toNat_ofNat _ _).trans (Nat.mod_eq_of_lt hlow)
    refine (decoderReadsExactlyTheSpecsWords w _).2 ⟨trivial, ?_⟩
    rw [commandNumber, hc]
    omega

end Sys2Proof

namespace Sys2Proof.Machine

/-! ### What the block does with a word -/

/-- The block runs the command that a word decodes to (R81). -/
theorem acceptCommand_of_decode {w : CommandWord} {i : Instr} (h : decode w = .command i) (s : State) :
    acceptCommand w s = exec i s := by
  simp only [acceptCommand, h]

/-- A word that is the command i under a condition, and no command otherwise, runs i or raises IllegalCommand (R81, R206). -/
theorem acceptCommand_of_decode_iff {w : CommandWord} {p : Prop} [Decidable p] {i : Instr}
    (h : ∀ j, decode w = .command j ↔ p ∧ j = i) (s : State) :
    acceptCommand w s = if p then exec i s else .next (afterStatelessError 6 s) := by
  by_cases hp : p
  · rw [if_pos hp]
    exact acceptCommand_of_decode ((h i).2 ⟨hp, rfl⟩) s
  · rw [if_neg hp]
    exact acceptCommand_of_no_command (fun j hj => hp ((h j).1 hj).1) s

/-! ### What the two commands write -/

/-- ALPHA_ENC of a digit answers its ROM_FWD entry (R101). -/
theorem exec_alphaEnc_of_lt {v : BitVec 7} (hv : v.toNat < 85) (s : State) :
    exec (.alphaEnc v) s = .next (setResult ((romFwd ⟨v.toNat, hv⟩).setWidth 40) 1 s) :=
  dif_pos hv

/-- ALPHA_DEC of a symbol answers its digit (R103). -/
theorem exec_alphaDec_of_symbol {c : Byte} (hc : isSymbol c) (s : State) :
    exec (.alphaDec c) s = .next (setResult (BitVec.ofNat 40 (c.toNat - 33)) 1 s) := by
  simp only [exec, execAlphaDec, romInv_of_symbol hc]

/-- ALPHA_DEC of any other byte raises InvalidCharacter (R103). -/
theorem exec_alphaDec_of_not_symbol {c : Byte} (hc : ¬isSymbol c) (s : State) :
    exec (.alphaDec c) s = .next (raiseStateless .invalidCharacter s) := by
  simp only [exec, execAlphaDec, romInv_of_not_symbol hc]

/-- The result of ALPHA_ENC, a symbol's code in res_data, as a number (R24, R51). -/
theorem romFwd_setWidth (d : Digit) : (romFwd d).setWidth 40 = BitVec.ofNat 40 (d.val + 33) := by
  rw [← romFwd_toNat, BitVec.ofNat_toNat]

/-- Settles O15: the ROM entry of the digit is v + 33, and a word with OP 1 is the command when its other bits are a digit. -/
theorem alphaEncGivesTheSymbol : Obligations.AlphaEncGivesTheSymbol := by
  refine ⟨fun s v hv => ?_, fun s w hw => acceptCommand_of_decode_iff (decode_eq_command_iff_of_op_one hw) s⟩
  rw [exec_alphaEnc_of_lt (Nat.lt_succ_of_le hv), romFwd_setWidth]
  rfl

/-- Settles O16: ROM_INV at a symbol and off the alphabet, and a word with OP 2 is the command when its other bits are a byte. -/
theorem alphaDecGivesTheDigit : Obligations.AlphaDecGivesTheDigit :=
  ⟨fun s _ hc => exec_alphaDec_of_symbol hc s, fun s _ hc => exec_alphaDec_of_not_symbol hc s,
    fun s _ hw => acceptCommand_of_decode_iff (decode_eq_command_iff_of_op_two hw) s⟩

end Sys2Proof.Machine

/-! PROOFS. The family of spec/41_group_encoder.md: which words are the command ENC_GROUP, what it writes, and when `z` is among its
result symbols. -/

namespace Sys2Proof

/-! ### The words with OP 0x3 -/

/-- OP 0x3 is the OP of ENC_GROUP only (R71). -/
theorem eq_encGroup_of_opOf {i : Instr} (h : (opOf i).toNat = 3) : ∃ n value, i = .encGroup n value := by
  cases i
  case encGroup n value => exact ⟨n, value, rfl⟩
  all_goals cases h

/-- A word with OP 0x3 is a command when DATA[39:32] is 0 and the operands are legal, and then ENC_GROUP of them (R74, R122). -/
theorem decode_eq_command_iff_of_op_three {w : CommandWord} (hw : w.toNat / 2 ^ 44 = 3) (i : Instr) :
    decode w = .command i ↔
      (w.toNat / 2 ^ 32 % 2 ^ 8 = 0 ∧ legalOperands (.encGroup (BitVec.ofNat 4 (w.toNat / 2 ^ 40)) (BitVec.ofNat 32 w.toNat))) ∧
        i = .encGroup (BitVec.ofNat 4 (w.toNat / 2 ^ 40)) (BitVec.ofNat 32 w.toNat) := by
  constructor
  · intro h
    obtain ⟨n, value, rfl⟩ := eq_encGroup_of_opOf ((opOf_toNat_of_decode h).trans hw)
    obtain ⟨hlegal, hnum : w.toNat = 3 * 2 ^ 44 + n.toNat * 2 ^ 40 + value.toNat⟩ := (decoderReadsExactlyTheSpecsWords w _).1 h
    have hn : BitVec.ofNat 4 (w.toNat / 2 ^ 40) = n := BitVec.eq_of_toNat_eq (by rw [BitVec.toNat_ofNat]; omega)
    have hv : BitVec.ofNat 32 w.toNat = value := BitVec.eq_of_toNat_eq (by rw [BitVec.toNat_ofNat]; omega)
    rw [hn, hv]
    exact ⟨⟨by omega, hlegal⟩, rfl⟩
  · rintro ⟨⟨hpad, hlegal⟩, rfl⟩
    refine (decoderReadsExactlyTheSpecsWords w _).2 ⟨hlegal, ?_⟩
    rw [commandNumber, BitVec.toNat_ofNat, BitVec.toNat_ofNat]
    omega

end Sys2Proof

namespace Sys2Proof.Machine

/-! ### The symbols of GroupEncode -/

/-- Digit j of a group value, "equivalently d[i] = (V div 85^(4−i)) mod 85" (R121). -/
theorem groupDigits_getElem? (value : GroupValue) {j : Nat} (hj : j < 5) :
    (groupDigits value)[j]? = some (lastDigit (value.toNat / 85 ^ (4 - j))) := by
  rw [groupDigits_eq]
  interval_cases j
  all_goals simp [Nat.div_div_eq_div_mul]

/-- The ROM_FWD code of digit j is symbol j of the spec (R121). -/
theorem romFwd_lastDigit_toNat (x j : Nat) : (romFwd (lastDigit (x / 85 ^ (4 - j)))).toNat = encodedSymbol x j := by
  rw [romFwd_toNat, lastDigit_val, encodedSymbol]

section
variable {n : Nat} {value : GroupValue} (hz : ¬(n = 4 ∧ value = 0))
include hz

/-- A group that is not the all-zero full group has n + 1 symbols (R123). -/
theorem groupEncode_length (hn : n ≤ 4) : (groupEncode n value).length = n + 1 := by
  rw [groupEncode_of_digits hz, List.length_take, List.length_map, groupDigits_eq]
  exact Nat.min_eq_left (Nat.succ_le_succ hn)

/-- Symbol j of such a group, for j = 0..n (R121). -/
theorem groupEncode_getD_toNat {j : Nat} (hj : j < 5) :
    ((groupEncode n value).getD j 0).toNat = if j ≤ n then encodedSymbol value.toNat j else 0 := by
  rw [groupEncode_of_digits hz, List.getD_eq_getElem?_getD, List.getElem?_take, List.getElem?_map, groupDigits_getElem? value hj]
  by_cases hjn : j ≤ n
  · rw [if_pos (Nat.lt_succ_of_le hjn), if_pos hjn]
    exact romFwd_lastDigit_toNat _ _
  · rw [if_neg (by omega), if_neg hjn]
    rfl

/-- The packed symbols of such a group are the spec's res_data (R24, R122). -/
theorem packSymbols_groupEncode (hn : 1 ≤ n) :
    packSymbols (groupEncode n value) = BitVec.ofNat 40 (encodedNumber n value.toNat) := by
  have hnum : (packSymbols (groupEncode n value)).toNat = encodedNumber n value.toNat := by
    simp only [packSymbols_toNat, groupEncode_getD_toNat hz, Nat.reduceLT, encodedNumber, Nat.zero_le, hn, if_true, ite_mul,
      Nat.zero_mul]
  rw [← hnum, BitVec.ofNat_toNat, BitVec.setWidth_eq]

/-- Such a group has alphabet symbols only (R124). -/
theorem isSymbol_of_mem_groupEncode {c : Byte} (hc : c ∈ groupEncode n value) : isSymbol c := by
  rw [groupEncode_of_digits hz] at hc
  obtain ⟨d, _, rfl⟩ := List.mem_map.1 (List.mem_of_mem_take hc)
  exact romFwd_isSymbol d

end

/-- GroupEncode gives `z` for the all-zero full group only (R124). -/
theorem zeroShorthand_mem_groupEncode_iff {n : Nat} {value : GroupValue} :
    0x7A ∈ groupEncode n value ↔ n = 4 ∧ value = 0 := by
  constructor
  · intro hmem
    by_contra hz
    exact absurd (isSymbol_of_mem_groupEncode hz hmem) (by decide)
  · rintro ⟨rfl, rfl⟩
    rw [groupEncode_zero]
    exact List.mem_singleton_self _

/-! ### Reading packed symbols back -/

/-- Byte j of packed symbols is symbol j, and 0 below the last one (R24). -/
theorem symbolAt_packSymbols (l : List Byte) {j : Nat} (hj : j < 5) : symbolAt (packSymbols l) j = l.getD j 0 := by
  apply BitVec.eq_of_toNat_eq
  rw [symbolAt_toNat, packSymbols_toNat]
  interval_cases j
  all_goals omega

/-- The host reads up to five symbols back from the result registers they were written to (R24, R86). -/
theorem resultSymbols_setResult {l : List Byte} (hl : l.length ≤ 5) (s : State) :
    resultSymbols (setResult (packSymbols l) (BitVec.ofNat 3 l.length) s) = l := by
  have hlen : (BitVec.ofNat 3 l.length).toNat = l.length := by rw [BitVec.toNat_ofNat]; omega
  rw [resultSymbols, setResult_resLen, setResult_resData, hlen]
  apply List.ext_getElem (by simp)
  intro j _ hj
  rw [List.getElem_map, List.getElem_range, symbolAt_packSymbols l (by omega), List.getD_eq_getElem l 0 hj]

/-! ### What ENC_GROUP writes -/

/-- ENC_GROUP of legal operands writes the symbols of GroupEncode and their number (R122). -/
theorem exec_encGroup_of_legal {n : BitVec 4} {value : GroupValue} (h : legalOperands (.encGroup n value)) (s : State) :
    exec (.encGroup n value) s = .next (setResult (packSymbols (groupEncode n.toNat value))
      (BitVec.ofNat 3 (groupEncode n.toNat value).length) s) :=
  if_pos ((groupOperandLegal_iff n value).2 h)

/-- The all-zero full group, its size read as a number or as the operand n (R74). -/
theorem groupSize_eq_four_iff {n : BitVec 4} {value : GroupValue} : n.toNat = 4 ∧ value = 0 ↔ n = 4 ∧ value = 0 :=
  and_congr_left' (BitVec.toNat_inj (y := 4))

/-- Settles O18: the symbols of GroupEncode are the spec's, byte by byte of res_data, and a word with OP 3 is the command when
DATA[39:32] is 0 and the operands are legal. -/
theorem encGroupGivesTheSymbols : Obligations.EncGroupGivesTheSymbols := by
  refine ⟨fun s => ?_, fun s n value hlegal hz => ?_, fun s w hw => ?_⟩
  · have hsyms : groupEncode (4 : BitVec 4).toNat 0 = [0x7A] := groupEncode_zero
    rw [exec_encGroup_of_legal ((groupOperandLegal_iff 4 0).1 rfl), hsyms]
    rfl
  · have ⟨hone, hfour, _⟩ := hlegal
    have hz' := mt groupSize_eq_four_iff.1 hz
    rw [exec_encGroup_of_legal hlegal, packSymbols_groupEncode hz' hone, groupEncode_length hz' hfour]
    rfl
  · classical
    rw [acceptCommand_of_decode_iff (decode_eq_command_iff_of_op_three hw) s]
    exact ⟨fun h => if_pos h, fun h => if_neg h⟩

/-- Settles O19: the result symbols are those of GroupEncode, all of them alphabet symbols unless the group is full and 0. -/
theorem shorthandOnlyForAFullZeroGroup : Obligations.ShorthandOnlyForAFullZeroGroup := by
  intro s t n value hlegal ht
  rw [exec_encGroup_of_legal hlegal] at ht
  cases ht
  rw [resultSymbols_setResult (groupEncode_length_le _ _), zeroShorthand_mem_groupEncode_iff, groupSize_eq_four_iff]

end Sys2Proof.Machine

/-! PROOFS. The family of spec/42_group_decoder.md: which words are the command DEC_GROUP, when GroupDecode overflows, and what the
command writes. -/

namespace Sys2Proof

/-! ### The words with OP 0x4 -/

/-- OP 0x4 is the OP of DEC_GROUP only (R71). -/
theorem eq_decGroup_of_opOf {i : Instr} (h : (opOf i).toNat = 4) : ∃ s0 s1 s2 s3 s4, i = .decGroup s0 s1 s2 s3 s4 := by
  cases i
  case decGroup s0 s1 s2 s3 s4 => exact ⟨s0, s1, s2, s3, s4, rfl⟩
  all_goals cases h

/-- A byte is read back from the low 8 bits of a number (R75). -/
theorem eq_ofNat_of_mod_eq {c : Byte} {x : Nat} (h : x % 2 ^ 8 = c.toNat) : c = BitVec.ofNat 8 x :=
  BitVec.eq_of_toNat_eq ((BitVec.toNat_ofNat x 8).trans h).symm

/-- A word with OP 0x4 is a command when ARG is 0, and then DEC_GROUP of the five bytes of DATA (R75, R142). -/
theorem decode_eq_command_iff_of_op_four {w : CommandWord} (hw : w.toNat / 2 ^ 44 = 4) (i : Instr) :
    decode w = .command i ↔ w.toNat / 2 ^ 40 % 2 ^ 4 = 0 ∧
      i = .decGroup (BitVec.ofNat 8 (w.toNat / 2 ^ 32)) (BitVec.ofNat 8 (w.toNat / 2 ^ 24)) (BitVec.ofNat 8 (w.toNat / 2 ^ 16))
        (BitVec.ofNat 8 (w.toNat / 2 ^ 8)) (BitVec.ofNat 8 w.toNat) := by
  constructor
  · intro h
    obtain ⟨s0, s1, s2, s3, s4, rfl⟩ := eq_decGroup_of_opOf ((opOf_toNat_of_decode h).trans hw)
    have hnum := ((decoderReadsExactlyTheSpecsWords w _).1 h).2
    rw [commandNumber] at hnum
    refine ⟨by omega, ?_⟩
    congr 1
    all_goals exact eq_ofNat_of_mod_eq (by omega)
  · rintro ⟨harg, rfl⟩
    refine (decoderReadsExactlyTheSpecsWords w _).2 ⟨trivial, ?_⟩
    simp only [commandNumber, BitVec.toNat_ofNat]
    omega

end Sys2Proof

namespace Sys2Proof.Machine

/-! ### GroupDecode and the digits' number -/

section
variable {d0 d1 d2 d3 d4 : Digit}

/-- The digits' number is the value after four digits, times 85, plus the fifth digit (R141, R143). -/
theorem groupNumber_eq_accumulate (d0 d1 d2 d3 d4 : Digit) :
    groupNumber d0 d1 d2 d3 d4 = accumulate [d0, d1, d2, d3] * 85 + d4.val := by
  rw [accumulate_four, groupNumber]
  omega

/-- Above the range one of the two tests fails (R143). -/
theorem groupDecode_of_overflow (h : 0xFFFFFFFF < groupNumber d0 d1 d2 d3 d4) : groupDecode d0 d1 d2 d3 d4 = none := by
  rw [groupNumber_eq_accumulate] at h
  by_cases hfirst : 50529027 < accumulate [d0, d1, d2, d3]
  · exact groupDecode_first_test hfirst
  · exact groupDecode_second_test (Nat.not_lt.1 hfirst) (by omega)

/-- In the range both tests pass, and the group is the one of the digits' number (R143). -/
theorem groupDecode_of_inRange (h : groupNumber d0 d1 d2 d3 d4 ≤ 0xFFFFFFFF) :
    groupDecode d0 d1 d2 d3 d4 = some (groupBytesOf (groupNumber d0 d1 d2 d3 d4)) := by
  rw [groupNumber_eq_accumulate] at h ⊢
  exact groupDecode_accepts (by omega) (by omega)

end

/-- The four bytes of a 32-bit value, concatenated, are the value (R142). -/
theorem groupWord_groupBytesOf (v : Nat) : groupWord (groupBytesOf v) = BitVec.ofNat 32 v := by
  apply BitVec.eq_of_toNat_eq
  simp only [groupWord, groupBytesOf, groupByte, toNat_append_eq, BitVec.extractLsb'_toNat, Nat.shiftRight_eq_div_pow]
  omega

/-- The zero-extended result of DEC_GROUP is the number itself (R142). -/
theorem groupWord_setWidth {v : Nat} (hv : v ≤ 0xFFFFFFFF) : (groupWord (groupBytesOf v)).setWidth 40 = BitVec.ofNat 40 v := by
  rw [groupWord_groupBytesOf]
  exact BitVec.setWidth_ofNat_of_le_of_lt (by decide) (Nat.lt_succ_of_le hv)

/-! ### What DEC_GROUP writes -/

/-- ROM_INV is valid for symbols only (R52). -/
theorem isSymbol_of_romInv_eq_some {c : Byte} {d : Digit} (h : romInv c = some d) : isSymbol c :=
  romInv_eq_some_iff.1 h ▸ romFwd_isSymbol d

/-- DEC_GROUP with a byte that is no symbol raises InvalidCharacter, whatever the other bytes are (R142, R210). -/
theorem exec_decGroup_of_not_symbols {c0 c1 c2 c3 c4 : Byte}
    (h : ¬(isSymbol c0 ∧ isSymbol c1 ∧ isSymbol c2 ∧ isSymbol c3 ∧ isSymbol c4)) (s : State) :
    exec (.decGroup c0 c1 c2 c3 c4) s = .next (raiseStateless .invalidCharacter s) := by
  show execDecGroup c0 c1 c2 c3 c4 s = _
  unfold execDecGroup
  split
  · next h0 h1 h2 h3 h4 =>
    exact absurd ⟨isSymbol_of_romInv_eq_some h0, isSymbol_of_romInv_eq_some h1, isSymbol_of_romInv_eq_some h2,
      isSymbol_of_romInv_eq_some h3, isSymbol_of_romInv_eq_some h4⟩ h
  · rfl

section
variable {c0 c1 c2 c3 c4 : Byte} {d0 d1 d2 d3 d4 : Digit}
variable (h0 : romInv c0 = some d0) (h1 : romInv c1 = some d1) (h2 : romInv c2 = some d2) (h3 : romInv c3 = some d3)
  (h4 : romInv c4 = some d4)
include h0 h1 h2 h3 h4

/-- DEC_GROUP of five symbols whose digits' number is above the range raises Overflow (R142). -/
theorem exec_decGroup_of_overflow (hv : 0xFFFFFFFF < groupNumber d0 d1 d2 d3 d4) (s : State) :
    exec (.decGroup c0 c1 c2 c3 c4) s = .next (raiseStateless .overflow s) := by
  simp only [exec, execDecGroup, h0, h1, h2, h3, h4, groupDecode_of_overflow hv]

/-- DEC_GROUP of five symbols whose digits' number is in the range answers the number in four bytes (R142). -/
theorem exec_decGroup_of_inRange (hv : groupNumber d0 d1 d2 d3 d4 ≤ 0xFFFFFFFF) (s : State) :
    exec (.decGroup c0 c1 c2 c3 c4) s = .next (setResult (BitVec.ofNat 40 (groupNumber d0 d1 d2 d3 d4)) 4 s) := by
  simp only [exec, execDecGroup, h0, h1, h2, h3, h4, groupDecode_of_inRange hv, groupWord_setWidth hv]

end

/-- Settles O20: a byte off the alphabet, a number above the range and a number in the range each have their writes, and a word with
OP 4 is the command when ARG is 0. -/
theorem decGroupGivesTheBytes : Obligations.DecGroupGivesTheBytes := by
  refine ⟨fun s _ _ _ _ _ h => exec_decGroup_of_not_symbols h s, fun s _ _ _ _ _ h hv => ?_, fun s _ _ _ _ _ h hv => ?_,
    fun s _ hw => acceptCommand_of_decode_iff (decode_eq_command_iff_of_op_four hw) s⟩
  · obtain ⟨h0, h1, h2, h3, h4⟩ := h
    exact exec_decGroup_of_overflow (romInv_of_symbol h0) (romInv_of_symbol h1) (romInv_of_symbol h2) (romInv_of_symbol h3)
      (romInv_of_symbol h4) hv s
  · obtain ⟨h0, h1, h2, h3, h4⟩ := h
    exact exec_decGroup_of_inRange (romInv_of_symbol h0) (romInv_of_symbol h1) (romInv_of_symbol h2) (romInv_of_symbol h3)
      (romInv_of_symbol h4) hv s

end Sys2Proof.Machine

/-! PROOFS. The family of spec/43_stream_decoder.md: which words are the stream commands, what FeedChar and FlushShort answer, and
what SM_INIT, SM_FEED and SM_FINALIZE write. -/

namespace Sys2Proof

/-! ### The words with OP 0x5, 0x6 and 0x7 -/

/-- OP 0x5 is the OP of SM_INIT only (R71). -/
theorem eq_smInit_of_opOf {i : Instr} (h : (opOf i).toNat = 5) : i = .smInit := by
  cases i
  case smInit => rfl
  all_goals cases h

/-- OP 0x6 is the OP of SM_FEED only (R71). -/
theorem eq_smFeed_of_opOf {i : Instr} (h : (opOf i).toNat = 6) : ∃ c, i = .smFeed c := by
  cases i
  case smFeed c => exact ⟨c, rfl⟩
  all_goals cases h

/-- OP 0x7 is the OP of SM_FINALIZE only (R71). -/
theorem eq_smFinalize_of_opOf {i : Instr} (h : (opOf i).toNat = 7) : i = .smFinalize := by
  cases i
  case smFinalize => rfl
  all_goals cases h

/-- Where one command without operands has an OP to itself, a word with that OP is a command when its other 44 bits are 0 (R78). -/
theorem decode_eq_command_iff_of_no_operand (i : Instr) {op : Nat} (hlegal : legalOperands i)
    (hnum : commandNumber i = op * 2 ^ 44) (honly : ∀ j, (opOf j).toNat = op → j = i) {w : CommandWord}
    (hw : w.toNat / 2 ^ 44 = op) (j : Instr) :
    decode w = .command j ↔ w.toNat % 2 ^ 44 = 0 ∧ j = i := by
  constructor
  · intro h
    obtain rfl := honly j ((opOf_toNat_of_decode h).trans hw)
    have hword := ((decoderReadsExactlyTheSpecsWords w _).1 h).2
    exact ⟨by omega, rfl⟩
  · rintro ⟨hlow, rfl⟩
    exact (decoderReadsExactlyTheSpecsWords w _).2 ⟨hlegal, by omega⟩

/-- A word with OP 0x6 is a command when its other 44 bits are a byte, and then SM_FEED of that byte (R79, R166). -/
theorem decode_eq_command_iff_of_op_six {w : CommandWord} (hw : w.toNat / 2 ^ 44 = 6) (i : Instr) :
    decode w = .command i ↔ w.toNat % 2 ^ 44 < 256 ∧ i = .smFeed (BitVec.ofNat 8 (w.toNat % 2 ^ 44)) := by
  constructor
  · intro h
    obtain ⟨c, rfl⟩ := eq_smFeed_of_opOf ((opOf_toNat_of_decode h).trans hw)
    have hnum : w.toNat = 6 * 2 ^ 44 + c.toNat := ((decoderReadsExactlyTheSpecsWords w _).1 h).2
    exact ⟨by omega, congrArg Instr.smFeed (eq_ofNat_of_mod_eq (by omega))⟩
  · rintro ⟨hlow, rfl⟩
    refine (decoderReadsExactlyTheSpecsWords w _).2 ⟨trivial, ?_⟩
    rw [commandNumber, BitVec.toNat_ofNat]
    omega

end Sys2Proof

namespace Sys2Proof.Machine

/-! ### The classes of input bytes -/

/-- The codes that R163 lists for class other are in none of the three other classes. -/
theorem isOther_of_code {c : Byte} (h : c.toNat ≤ 0x08 ∨ c.toNat = 0x0B ∨ c.toNat = 0x0C ∨ (0x0E ≤ c.toNat ∧ c.toNat ≤ 0x1F) ∨
    (0x76 ≤ c.toNat ∧ c.toNat ≤ 0x79) ∨ 0x7B ≤ c.toNat) : isOther c := by
  refine ⟨?_, ?_, by omega⟩
  · rintro (rfl | rfl | rfl | rfl) <;> revert h <;> decide
  · rintro rfl
    revert h
    decide

/-- Settles O26, class by class. -/
theorem everyByteFallsInOneClass : Obligations.EveryByteFallsInOneClass :=
  fun _ => ⟨charClass_whitespace, fun hz => hz ▸ charClass_zero, fun hc => ⟨_, charClass_symbol hc, rfl⟩,
    fun hcode => charClass_other (isOther_of_code hcode)⟩

/-! ### The group behind a flush -/

/-- The bytes of a flushed full group, or Overflow, by the number of its digits (R143, R165). -/
theorem flushFull_eq (hold : Hold) (x : Digit) {v : Nat}
    (hv : groupNumber (heldDigit hold[0]) (heldDigit hold[1]) (heldDigit hold[2]) (heldDigit hold[3]) x = v) :
    flushFull hold x = if v ≤ 0xFFFFFFFF then .accepted clearedHold 0 (bigEndian v) else .failed .overflow := by
  subst hv
  split
  · next hle => simp only [flushFull, groupDecode_of_inRange hle, groupList_ofNat]
  · next hgt => simp only [flushFull, groupDecode_of_overflow (Nat.lt_of_not_le hgt)]

/-- The bytes of a flushed short group, or Overflow, by the number of its padded digits (R143, R175). -/
theorem flushShort_eq (hold : Hold) (k : BitVec 3) {v : Nat}
    (hv : groupNumber (shortDigit k 0 hold[0]) (shortDigit k 1 hold[1]) (shortDigit k 2 hold[2]) (shortDigit k 3 hold[3])
      (shortDigit k 4 hold[4]) = v) :
    flushShort hold k = if v ≤ 0xFFFFFFFF then some ((bigEndian v).take (k.toNat - 1)) else none := by
  subst hv
  split
  · next hle => simp only [flushShort, groupDecode_of_inRange hle, groupList_ofNat]
  · next hgt => simp only [flushShort, groupDecode_of_overflow (Nat.lt_of_not_le hgt)]

/-- Digit i of a short group is the spec's padded digit (R175). -/
theorem shortDigit_val {k : BitVec 3} {i : Nat} {c : Byte} (hc : i < k.toNat → isSymbol c) :
    (shortDigit k i c).val = paddedDigit k.toNat i c := by
  by_cases hik : i < k.toNat
  · rw [shortDigit, paddedDigit, if_pos hik, if_pos hik, heldDigit_of_symbol (hc hik)]
  · rw [shortDigit, paddedDigit, if_neg hik, if_neg hik]
    rfl

/-- FlushShort on a buffer of at most four pending symbols, with the padded group of R175 as a number. -/
theorem flushShort_of_heldAreSymbols {s : State} (hk : s.holdCount.toNat ≤ 4) (hsym : s.heldAreSymbols) :
    flushShort s.hold s.holdCount =
      if paddedNumber s.holdCount.toNat s.hold ≤ 0xFFFFFFFF then
        some ((bigEndian (paddedNumber s.holdCount.toNat s.hold)).take (s.holdCount.toNat - 1))
      else none := by
  obtain ⟨h0, h1, h2, h3⟩ := hsym
  have h4 : 4 < s.holdCount.toNat → isSymbol s.hold[4] := fun h => absurd h (by omega)
  apply flushShort_eq
  rw [shortDigit_val h0, shortDigit_val h1, shortDigit_val h2, shortDigit_val h3, shortDigit_val h4, paddedNumber]

/-! ### FeedChar, class by class -/

section
variable {c : Byte} (hold : Hold) (k : BitVec 3)

theorem feedChar_of_whitespace (hc : isWhitespace c) : feedChar hold k c = .accepted hold k [] := by
  simp only [feedChar, charClass_whitespace hc]

theorem feedChar_zero_at_boundary : feedChar hold 0 0x7A = .accepted hold 0 [0x00, 0x00, 0x00, 0x00] := by
  simp only [feedChar, charClass_zero, if_true]

theorem feedChar_zero_of_pending (hk : k ≠ 0) : feedChar hold k 0x7A = .failed .invalidCharacter := by
  simp only [feedChar, charClass_zero, if_neg hk]

theorem feedChar_of_other (hc : isOther c) : feedChar hold k c = .failed .invalidCharacter := by
  simp only [feedChar, charClass_other hc]

theorem feedChar_of_symbol_of_lt (hc : isSymbol c) (hk : k.toNat < 4) :
    feedChar hold k c = .accepted (hold.setIfInBounds k.toNat c) (k + 1) [] := by
  simp only [feedChar, charClass_symbol hc, if_pos hk]

theorem feedChar_fifth_symbol (hc : isSymbol c) (h0 : isSymbol hold[0]) (h1 : isSymbol hold[1]) (h2 : isSymbol hold[2])
    (h3 : isSymbol hold[3]) :
    feedChar hold 4 c =
      if symbolsNumber hold[0] hold[1] hold[2] hold[3] c ≤ 0xFFFFFFFF then
        .accepted clearedHold 0 (bigEndian (symbolsNumber hold[0] hold[1] hold[2] hold[3] c))
      else .failed .overflow := by
  have hflush : feedChar hold 4 c = flushFull hold ⟨c.toNat - 33, by omega⟩ := by
    simp only [feedChar, charClass_symbol hc]
    exact if_neg (by decide)
  rw [hflush]
  apply flushFull_eq
  rw [heldDigit_of_symbol h0, heldDigit_of_symbol h1, heldDigit_of_symbol h2, heldDigit_of_symbol h3, symbolsNumber]

end

/-- Settles O27, class by class. -/
theorem feedCharFollowsTheByteClass : Obligations.FeedCharFollowsTheByteClass := by
  refine fun hold k c => ⟨feedChar_of_whitespace hold k, ?_, ?_, feedChar_of_other hold k, feedChar_of_symbol_of_lt hold k, ?_⟩
  · rintro rfl rfl
    exact feedChar_zero_at_boundary hold
  · rintro rfl hk
    exact feedChar_zero_of_pending hold k hk
  · rintro hc rfl h0 h1 h2 h3
    exact feedChar_fifth_symbol hold hc h0 h1 h2 h3

/-! ### What SM_FEED and SM_FINALIZE write -/

theorem State.accepting.ne_finished {s : State} (h : s.accepting) : s.smState ≠ .finished := by
  rcases h with h | h <;> simp [h]

/-- A success that emits nothing leaves the output record alone (R33). -/
theorem advance_nil (n : BitVec 32) (q : SmState) (hold : Hold) (k : BitVec 3) (s : State) :
    advance n q hold k [] s =
      { s with cmdStatus := 0, smState := q, hold := hold, holdCount := k, inCount := s.inCount + n } := by
  simp [advance, statusCode]

section
variable {s : State}

/-- In ERROR, SM_FEED writes cmd_status only (R166, R205(b)). -/
theorem exec_smFeed_of_error (hq : s.smState = .error) (c : Byte) : exec (.smFeed c) s = .next { s with cmdStatus := 5 } :=
  if_pos hq

/-- In FINISHED, SM_FEED raises SequenceError (R166, R205(a)). -/
theorem exec_smFeed_of_finished (hq : s.smState = .finished) (c : Byte) :
    exec (.smFeed c) s = .next (afterContextError 5 c s) := by
  have hne : s.smState ≠ .error := by simp [hq]
  exact (if_neg hne).trans (if_pos hq)

theorem exec_smFeed_of_accepting (hq : s.accepting) (c : Byte) : exec (.smFeed c) s = .next (feedOpen c s) :=
  (if_neg hq.ne_error).trans (if_neg hq.ne_finished)

/-- An error of FeedChar is raised with its byte (R166). -/
theorem exec_smFeed_of_failed {c : Byte} {e : Status} (hq : s.accepting) (hf : feedChar s.hold s.holdCount c = .failed e) :
    exec (.smFeed c) s = .next (afterContextError (statusCode e) c s) := by
  rw [exec_smFeed_of_accepting hq, feedOpen, hf, ← raiseContext_eq]

/-- What FeedChar accepts is written to the context (R166). -/
theorem exec_smFeed_of_accepted {c : Byte} {hold : Hold} {k : BitVec 3} {bytes : List Byte} (hq : s.accepting)
    (hf : feedChar s.hold s.holdCount c = .accepted hold k bytes) :
    exec (.smFeed c) s = .next (advance 1 (acceptingState k) hold k bytes s) := by
  rw [exec_smFeed_of_accepting hq, feedOpen, hf, ← feed_eq_advance]

/-- In ERROR, SM_FINALIZE writes cmd_status only (R176, R205(b)). -/
theorem exec_smFinalize_of_error (hq : s.smState = .error) : exec .smFinalize s = .next { s with cmdStatus := 5 } :=
  if_pos hq

/-- In FINISHED, SM_FINALIZE raises SequenceError (R176, R205(a)). -/
theorem exec_smFinalize_of_finished (hq : s.smState = .finished) :
    exec .smFinalize s = .next (afterContextError 5 0x00 s) := by
  have hne : s.smState ≠ .error := by simp [hq]
  exact (if_neg hne).trans (if_pos hq)

theorem exec_smFinalize_of_accepting (hq : s.accepting) : exec .smFinalize s = .next (finalizeOpen s) :=
  (if_neg hq.ne_error).trans (if_neg hq.ne_finished)

/-- With nothing pending, SM_FINALIZE only finishes the stream (R176). -/
theorem exec_smFinalize_of_none_pending (hq : s.accepting) (hk : s.holdCount = 0) :
    exec .smFinalize s = .next { s with smState := .finished, cmdStatus := 0 } := by
  rw [exec_smFinalize_of_accepting hq, finalizeOpen, if_pos hk]
  rfl

/-- A short group above the range raises Overflow (R176). -/
theorem exec_smFinalize_of_overflow (hq : s.accepting) (hk : s.holdCount ≠ 0) (hf : flushShort s.hold s.holdCount = none) :
    exec .smFinalize s = .next (afterContextError 2 0x00 s) := by
  rw [exec_smFinalize_of_accepting hq, finalizeOpen, if_neg hk, hf]
  rfl

/-- The bytes of a short group are emitted, the buffer cleared and the stream finished (R176). -/
theorem exec_smFinalize_of_flushed {bytes : List Byte} (hq : s.accepting) (hk : s.holdCount ≠ 0)
    (hf : flushShort s.hold s.holdCount = some bytes) :
    exec .smFinalize s = .next (advance 0 .finished clearedHold 0 bytes s) := by
  rw [exec_smFinalize_of_accepting hq, finalizeOpen, if_neg hk, hf, ← finalize_eq_advance]

/-- Skipping a byte leaves an accepting context that agrees with its count in its state (R26(b), R166). -/
theorem acceptingState_holdCount (hq : s.accepting) (hagree : s.smState = .empty ↔ s.holdCount = 0) :
    acceptingState s.holdCount = s.smState := by
  rw [acceptingState_eq]
  rcases hq with hq | hq
  · rw [if_pos (hagree.1 hq), hq]
  · have hk : s.holdCount ≠ 0 := mt hagree.2 (by simp [hq])
    rw [if_neg hk, hq]

end

/-- Settles O25: the writes of SM_INIT; in ERROR any other command keeps the context; and a word with OP 5 is the command when its
other bits are 0. -/
theorem smInitCreatesTheContext : Obligations.SmInitCreatesTheContext := by
  refine ⟨fun s => rfl, fun s t i hq ht hne => ?_, fun s w hw => ?_⟩
  · by_contra hi
    exact hne ((exec_sameContext_of_error hq hi ht).smState.trans hq)
  · exact acceptCommand_of_decode_iff (decode_eq_command_iff_of_no_operand .smInit trivial rfl (fun _ => eq_smInit_of_opOf) hw) s

/-- Settles O28: the context state decides, then FeedChar, and a word with OP 6 is the command when its other bits are a byte. -/
theorem smFeedAppliesFeedChar : Obligations.SmFeedAppliesFeedChar :=
  ⟨fun _ c hq => exec_smFeed_of_error hq c, fun _ c hq => exec_smFeed_of_finished hq c,
    fun _ _ _ hq hf => exec_smFeed_of_failed hq hf, fun _ _ _ _ _ hq hf => exec_smFeed_of_accepted hq hf,
    fun s _ hw => acceptCommand_of_decode_iff (decode_eq_command_iff_of_op_six hw) s⟩

/-- Settles O29: FeedChar gives the buffer and count back, so sm_state is as before. -/
theorem whitespaceIsSkipped : Obligations.WhitespaceIsSkipped := by
  intro s c hq hagree hc
  rw [exec_smFeed_of_accepted hq (feedChar_of_whitespace _ _ hc), advance_nil, acceptingState_holdCount hq hagree]

/-- Settles O30, at a group boundary and off it. -/
theorem shorthandOnlyAtAGroupBoundary : Obligations.ShorthandOnlyAtAGroupBoundary := by
  refine ⟨fun s hq hk => ?_, fun s hq hk => exec_smFeed_of_failed hq (feedChar_zero_of_pending _ _ hk)⟩
  have hf : feedChar s.hold s.holdCount 0x7A = .accepted s.hold s.holdCount [0x00, 0x00, 0x00, 0x00] := by
    rw [hk, feedChar_zero_at_boundary]
  rw [exec_smFeed_of_accepted hq hf, acceptingState_eq, if_pos hk]
  rfl

/-- Settles O32: below four pending symbols the count grows and is not 0; at four the group's number decides. -/
theorem fifthSymbolFlushesTheGroup : Obligations.FifthSymbolFlushesTheGroup := by
  refine ⟨fun s c hq hk hc => ?_, fun s c hq hk hsym hc => ?_⟩
  · have hpos : s.holdCount + 1 ≠ 0 := by bv_omega
    rw [exec_smFeed_of_accepted hq (feedChar_of_symbol_of_lt _ _ hc hk), advance_nil, acceptingState_eq, if_neg hpos]
  · obtain ⟨h0, h1, h2, h3⟩ := hsym
    have hfour : s.holdCount.toNat = 4 := congrArg BitVec.toNat hk
    have hf := feedChar_fifth_symbol s.hold hc (h0 (by omega)) (h1 (by omega)) (h2 (by omega)) (h3 (by omega))
    rw [← hk] at hf
    by_cases hv : symbolsNumber s.hold[0] s.hold[1] s.hold[2] s.hold[3] c ≤ 0xFFFFFFFF
    · rw [if_pos hv] at hf ⊢
      exact exec_smFeed_of_accepted hq hf
    · rw [if_neg hv] at hf ⊢
      exact exec_smFeed_of_failed hq hf

/-- The first k − 1 of a group's bytes, for k = 1..4, are k − 1 bytes (R175). -/
theorem length_take_bigEndian (v : Nat) {k : Nat} (hk : k ≤ 4) : ((bigEndian v).take (k - 1)).length = k - 1 :=
  List.length_take_of_le (show k - 1 ≤ 4 by omega)

/-- Settles O33: the context state decides, then the count, then the padded group's number, and a word with OP 7 is the command when
its other bits are 0. -/
theorem smFinalizeFlushesTheShortGroup : Obligations.SmFinalizeFlushesTheShortGroup := by
  refine ⟨fun _ => exec_smFinalize_of_error, fun _ => exec_smFinalize_of_finished, fun _ => exec_smFinalize_of_none_pending,
    fun s hq hk hle hsym => ?_, fun s w hw => ?_⟩
  · have hf := flushShort_of_heldAreSymbols hle hsym
    by_cases hv : paddedNumber s.holdCount.toNat s.hold ≤ 0xFFFFFFFF
    · rw [if_pos hv] at hf ⊢
      have hcount : s.inCount + 0 = s.inCount := BitVec.add_zero _
      rw [exec_smFinalize_of_flushed hq hk hf, advance, length_take_bigEndian _ hle, hcount]
      rfl
    · rw [if_neg hv] at hf ⊢
      exact exec_smFinalize_of_overflow hq hk hf
  · exact acceptCommand_of_decode_iff (decode_eq_command_iff_of_no_operand .smFinalize trivial rfl
      (fun _ => eq_smFinalize_of_opOf) hw) s

end Sys2Proof.Machine

/-! PROOFS. The family of spec/60_exceptions.md: the writes of the errors that the context does not see, of InvalidCharacter and of
SequenceError. -/

namespace Sys2Proof.Machine

/-- The next state of a stateless command that reports an error (R206): success would have reported OK. -/
theorem exec_stateless_error {i : Instr} {s t : State} (hi : i.stateless = true) (ht : exec i s = .next t)
    (hne : t.cmdStatus ≠ 0) : t = afterStatelessError t.cmdStatus s := by
  rcases exec_stateless_cases i hi with ⟨data, len, _, hx⟩ | ⟨e, _, hx⟩ <;> rw [hx] at ht <;> cases ht
  · exact absurd rfl hne
  · exact raiseStateless_eq e s

/-- Settles O5: a word that is no command raises IllegalCommand, and the error of a stateless command makes the same writes. -/
theorem statelessErrorsWriteOnlyTheResult : Obligations.StatelessErrorsWriteOnlyTheResult :=
  ⟨fun s _ hw => acceptCommand_of_no_command hw s, fun _ _ _ hi ht hne => exec_stateless_error hi ht hne⟩

/-- Settles O31: FeedChar refuses a byte of class other whatever is pending, and `z` off a group boundary. -/
theorem invalidCharacterIsRecorded : Obligations.InvalidCharacterIsRecorded := by
  rintro s c hq (hc | ⟨rfl, hk⟩)
  · exact exec_smFeed_of_failed hq (feedChar_of_other _ _ hc)
  · exact exec_smFeed_of_failed hq (feedChar_zero_of_pending _ _ hk)

/-- Settles O36: the context state alone decides, before the byte or the pending symbols are looked at. -/
theorem sequenceErrorAfterTheEnd : Obligations.SequenceErrorAfterTheEnd :=
  ⟨fun _ c hq => exec_smFeed_of_finished hq c, fun _ hq => exec_smFinalize_of_finished hq,
    fun _ c hq => exec_smFeed_of_error hq c, fun _ hq => exec_smFinalize_of_error hq⟩

end Sys2Proof.Machine

/-! PROOFS. The family of spec/70_reset_and_hazards.md: the registers after reset. -/

namespace Sys2Proof.Machine

/-- The reset input sets every register to its reset value (R230), whatever the state before. -/
theorem assertReset_atReset (s : State) : (assertReset s).AtReset where
  cmdStatus := assertReset_cmdStatus s
  resData := assertReset_resData s
  resLen := assertReset_resLen s
  smState := assertReset_smState s
  hold := assertReset_hold s
  holdCount := assertReset_holdCount s
  errCode := assertReset_errCode s
  errByte := assertReset_errByte s
  errPos := assertReset_errPos s
  inCount := assertReset_inCount s
  outCount := assertReset_outCount s
  outStream := assertReset_outStream s

/-- The reset event always completes, and what it does is the reset input (R230). -/
theorem acceptEvent_reset (s : State) : acceptEvent .reset s = .next (assertReset s) := rfl

/-- Asserting reset in the reset state changes nothing. -/
theorem assertReset_reset : assertReset State.reset = State.reset := rfl

/-- Settles O9: the reset event is `assertReset`, which sets every register from any state, and the reset state is one that
`assertReset` answers. -/
theorem resetSetsEveryRegister : Obligations.ResetSetsEveryRegister :=
  ⟨fun s => ⟨assertReset s, acceptEvent_reset s, assertReset_atReset s⟩, assertReset_reset ▸ assertReset_atReset State.reset⟩

end Sys2Proof.Machine

/-! PROOFS. Consequences for the alphabet and the groups: the two alphabet commands are inverse, when a group overflows, and that
decoding undoes encoding for full and for short groups. -/

namespace Sys2Proof.Machine

/-! ### The alphabet commands -/

/-- ALPHA_ENC of the number of a digit (R101). -/
theorem exec_alphaEnc_of_toNat {v : BitVec 7} {d : Digit} (h : v.toNat = d.val) (s : State) :
    exec (.alphaEnc v) s = .next (setResult ((romFwd d).setWidth 40) 1 s) := by
  rw [exec_alphaEnc_of_lt (h.trans_lt d.isLt)]
  simp only [h]

/-- ALPHA_DEC of the symbol of a digit (R103). -/
theorem exec_alphaDec_of_romInv {c : Byte} {d : Digit} (h : romInv c = some d) (s : State) :
    exec (.alphaDec c) s = .next (setResult (BitVec.ofNat 40 d.val) 1 s) := by
  simp only [exec, execAlphaDec, h]

/-- A symbol reads back from the low byte of res_data, and is then of its digit. -/
theorem romInv_setWidth_romFwd (d : Digit) : romInv (((romFwd d).setWidth 40).setWidth 8) = some d := by
  rw [BitVec.setWidth_setWidth_of_le _ (by decide), BitVec.setWidth_eq, romInv_romFwd]

/-- A digit reads back from the low seven bits of res_data. -/
theorem setWidth_digit_toNat (d : Digit) : ((BitVec.ofNat 40 d.val).setWidth 7).toNat = d.val := by
  simp only [BitVec.toNat_setWidth, BitVec.toNat_ofNat]
  omega

/-- Settles O17: the two commands carry a digit to its symbol and back through res_data. -/
theorem alphabetCommandsAreInverse : Obligations.AlphabetCommandsAreInverse := by
  refine ⟨fun s v hv => ?_, fun s c hc => ?_⟩
  · have henc := exec_alphaEnc_of_toNat (v := v) (d := ⟨v.toNat, Nat.lt_succ_of_le hv⟩) rfl s
    have hdec := exec_alphaDec_of_romInv (romInv_setWidth_romFwd ⟨v.toNat, Nat.lt_succ_of_le hv⟩)
    simp only [BitVec.ofNat_toNat] at hdec
    exact ⟨_, _, henc, hdec _, rfl, rfl, rfl⟩
  · have hdec := exec_alphaDec_of_romInv (romInv_of_symbol hc) s
    have henc := exec_alphaEnc_of_toNat (setWidth_digit_toNat ⟨c.toNat - 33, by omega⟩)
    rw [romFwd_of_symbol hc] at henc
    exact ⟨_, _, hdec, henc _, rfl, rfl, rfl⟩

/-! ### When a group overflows -/

/-- GroupDecode overflows exactly above the range (R143). -/
theorem groupDecode_eq_none_iff (d0 d1 d2 d3 d4 : Digit) :
    groupDecode d0 d1 d2 d3 d4 = none ↔ 0xFFFFFFFF < groupNumber d0 d1 d2 d3 d4 := by
  constructor
  · intro hnone
    by_contra hle
    rw [groupDecode_of_inRange (Nat.le_of_not_lt hle)] at hnone
    cases hnone
  · exact groupDecode_of_overflow

/-- Settles O21. -/
theorem groupDecodeOverflowsExactlyAboveTheRange : Obligations.GroupDecodeOverflowsExactlyAboveTheRange := by
  refine fun d0 d1 d2 d3 d4 => ⟨groupDecode_eq_none_iff d0 d1 d2 d3 d4, fun hle => ?_⟩
  rw [groupDecode_of_inRange hle, Option.map_some, groupList_ofNat]

/-- The group `s8W-!` has the largest number in the range (R145). -/
theorem symbolsNumber_largest : symbolsNumber 0x73 0x38 0x57 0x2D 0x21 = 0xFFFFFFFF := by decide

/-- Settles O22: the four lower digits add less than 85^4, and 82 · 85^4 ≤ 0xFFFFFFFF < 83 · 85^4. -/
theorem firstSymbolBoundsOverflow : Obligations.FirstSymbolBoundsOverflow := by
  intro d0 d1 d2 d3 d4
  rw [Ne, groupDecode_eq_none_iff, symbolsNumber_largest, groupNumber]
  exact ⟨fun h => by omega, fun h => by omega, fun _ => Iff.rfl⟩

/-! ### Full groups -/

/-- The digits of a group value have the value as their number (R121). -/
theorem groupNumber_digits (value : GroupValue) :
    groupNumber (value.toNat / 85 ^ 4 % 85) (value.toNat / 85 ^ 3 % 85) (value.toNat / 85 ^ 2 % 85) (value.toNat / 85 % 85)
      (value.toNat % 85) = value.toNat := by
  have h2 : value.toNat / 85 ^ 2 = value.toNat / 85 / 85 := by simp [Nat.div_div_eq_div_mul]
  have h3 : value.toNat / 85 ^ 3 = value.toNat / 85 / 85 / 85 := by simp [Nat.div_div_eq_div_mul]
  have h4 : value.toNat / 85 ^ 4 = value.toNat / 85 / 85 / 85 / 85 := by simp [Nat.div_div_eq_div_mul]
  rw [h2, h3, h4, groupNumber]
  omega

/-- A full group that is not 0 has five symbols, whose digits' number is the value (R121). -/
theorem groupEncode_full {value : GroupValue} (hv : value ≠ 0) :
    ∃ d0 d1 d2 d3 d4, groupEncode 4 value = [romFwd d0, romFwd d1, romFwd d2, romFwd d3, romFwd d4] ∧
      groupNumber d0 d1 d2 d3 d4 = value.toNat  := by
  refine ⟨_, _, _, _, _, groupEncode_of_digits (fun h => hv h.2), ?_⟩
  simp only [lastDigit_val, Nat.div_div_eq_div_mul]
  exact groupNumber_digits value

/-- Settles O23: the symbols read from res_data are those of the digits, and their number is the value. -/
theorem fullGroupRoundTrip : Obligations.FullGroupRoundTrip := by
  intro s value hv
  obtain ⟨d0, d1, d2, d3, d4, hsyms, hnum⟩ := groupEncode_full hv
  have hle : groupNumber d0 d1 d2 d3 d4 ≤ 0xFFFFFFFF := by rw [hnum]; omega
  have hlegal : legalOperands (.encGroup 4 value) := by simp [legalOperands, paddingIsZero]
  obtain ⟨t, ht, hdata⟩ : ∃ t, exec (.encGroup 4 value) s = .next t ∧ t.resData = packSymbols (groupEncode 4 value) :=
    ⟨_, exec_encGroup_of_legal hlegal s, rfl⟩
  have hdec := exec_decGroup_of_inRange (romInv_romFwd d0) (romInv_romFwd d1) (romInv_romFwd d2) (romInv_romFwd d3)
    (romInv_romFwd d4) hle t
  rw [hnum, BitVec.ofNat_toNat] at hdec
  refine ⟨t, setResult (value.setWidth 40) 4 t, ht, ?_, rfl, rfl, rfl⟩
  simp only [hdata, hsyms, symbolAt_packSymbols, Nat.reduceLT]
  exact hdec

end Sys2Proof.Machine

/-! PROOFS. Short groups at the end of a stream: the symbols of a short group flush to its bytes, and which short groups overflow. -/

namespace Sys2Proof.Machine

/-! ### The symbols of a short group flush to its bytes -/

/-- Byte i of a number, the first the most significant (R54(c)). -/
theorem bigEndian_getElem (v : Nat) {i : Nat} (hi : i < (bigEndian v).length) :
    (bigEndian v)[i] = BitVec.ofNat 8 (v / 2 ^ (8 * (3 - i))) := by
  have hi4 : i < 4 := hi
  interval_cases i
  all_goals simp [bigEndian]

/-- Numbers that agree above their lowest 4 − n bytes have the same first n bytes. -/
theorem take_bigEndian_congr {n v w : Nat} (h : w / 2 ^ (8 * (4 - n)) = v / 2 ^ (8 * (4 - n))) :
    (bigEndian w).take n = (bigEndian v).take n := by
  apply List.ext_getElem (by simp [bigEndian])
  intro i hw _
  have hin : i < n := hw.trans_le (List.length_take_le _ _)
  have hsplit : 2 ^ (8 * (3 - i)) = 2 ^ (8 * (4 - n)) * 2 ^ (8 * (min n 4 - 1 - i)) := by
    rw [← Nat.pow_add]
    congr 1
    have : i < 4 := hw.trans_le (List.length_take_le' _ _)
    omega
  rw [List.getElem_take, List.getElem_take, bigEndian_getElem, bigEndian_getElem, hsplit, ← Nat.div_div_eq_div_mul,
    ← Nat.div_div_eq_div_mul, h]

/-- The number of the padded group of the n + 1 symbols of a short group of n bytes with value v (R121, R175). -/
def shortNumber (n v : Nat) : Nat :=
  groupNumber (v / 85 ^ 4 % 85) (v / 85 ^ 3 % 85) (if 2 ≤ n then v / 85 ^ 2 % 85 else 84) (if 3 ≤ n then v / 85 % 85 else 84) 84

/-- A missing slot has the pad digit (R175). -/
theorem shortDigit_of_le {k : BitVec 3} {i : Nat} (h : k.toNat ≤ i) (c : Byte) : (shortDigit k i c).val = 84 := by
  rw [shortDigit, if_neg (Nat.not_lt.2 h)]
  rfl

section
variable {n : Nat} {value : GroupValue} (hn : n ≤ 3)
include hn

theorem shortCount_toNat : (BitVec.ofNat 3 (n + 1)).toNat = n + 1 :=
  (BitVec.toNat_ofNat _ _).trans (Nat.mod_eq_of_lt (by omega))

/-- Digit j of a short group that ENC_GROUP has encoded: the value's digit, or 84 after digit n (R121, R175). -/
theorem shortDigit_groupEncode {j : Nat} (hj : j < 5) :
    (shortDigit (BitVec.ofNat 3 (n + 1)) j ((groupEncode n value).getD j 0)).val =
      if j ≤ n then value.toNat / 85 ^ (4 - j) % 85 else 84 := by
  have hk := shortCount_toNat hn
  have hcode := groupEncode_getD_toNat (n := n) (value := value) (fun h => by omega) hj
  rw [encodedSymbol] at hcode
  by_cases hjn : j ≤ n
  · rw [if_pos hjn] at hcode ⊢
    rw [shortDigit_val (fun _ => by omega), paddedDigit, hk, if_pos (Nat.lt_succ_of_le hjn), hcode, Nat.add_sub_cancel]
  · rw [if_neg hjn, shortDigit_of_le (by omega)]

/-- FlushShort of the symbols of a short group, by the number of the padded group (R175). -/
theorem flushShort_groupEncode (h1 : 1 ≤ n) :
    flushShort #v[(groupEncode n value).getD 0 0, (groupEncode n value).getD 1 0, (groupEncode n value).getD 2 0,
        (groupEncode n value).getD 3 0, 0] (BitVec.ofNat 3 (n + 1)) =
      if shortNumber n value.toNat ≤ 0xFFFFFFFF then some ((bigEndian (shortNumber n value.toNat)).take n) else none := by
  have hk := shortCount_toNat hn
  rw [flushShort_eq (v := shortNumber n value.toNat), hk, Nat.add_sub_cancel]
  show groupNumber (shortDigit _ 0 ((groupEncode n value).getD 0 0)) (shortDigit _ 1 ((groupEncode n value).getD 1 0))
    (shortDigit _ 2 ((groupEncode n value).getD 2 0)) (shortDigit _ 3 ((groupEncode n value).getD 3 0)) (shortDigit _ 4 0) = _
  simp only [shortDigit_groupEncode hn, shortDigit_of_le (show (BitVec.ofNat 3 (n + 1)).toNat ≤ 4 by omega), Nat.reduceLT,
    Nat.zero_le, h1, if_true, Nat.reduceSub, Nat.pow_one, shortNumber]

/-- The padding raises the number by less than one of the lowest real byte, and not past the range (R179). -/
theorem shortNumber_bounds (h1 : 1 ≤ n) (hpad : value.toNat % 2 ^ (8 * (4 - n)) = 0) :
    shortNumber n value.toNat / 2 ^ (8 * (4 - n)) = value.toNat / 2 ^ (8 * (4 - n)) ∧
      shortNumber n value.toNat ≤ 0xFFFFFFFF := by
  have hdigits := groupNumber_digits value
  rw [shortNumber]
  rw [groupNumber] at hdigits ⊢
  interval_cases n
  all_goals
    simp only [Nat.reduceLeDiff, if_true, if_false, Nat.reduceSub, Nat.reduceMul, Nat.reducePow] at hpad hdigits ⊢
    omega

end

/-- Settles O24: the padded group's number is in the range and agrees with the value in the first n bytes. -/
theorem shortGroupRoundTrip : Obligations.ShortGroupRoundTrip := by
  intro n value h1 h3 hpad
  obtain ⟨hbytes, hrange⟩ := shortNumber_bounds h3 h1 hpad
  rw [flushShort_groupEncode h3 h1, if_pos hrange, take_bigEndian_congr hbytes]

/-! ### Which short groups overflow -/

/-- At the end of input a short group overflows when its padded group does (R176). -/
theorem smFinalize_overflows_iff {s t : State} (hq : s.accepting) (hk0 : s.holdCount ≠ 0) (hk : s.holdCount.toNat ≤ 4)
    (hsym : s.heldAreSymbols) (ht : exec .smFinalize s = .next t) :
    t.cmdStatus = 2 ↔ 0xFFFFFFFF < paddedNumber s.holdCount.toNat s.hold := by
  obtain ⟨_, _, _, hflush, _⟩ := smFinalizeFlushesTheShortGroup
  have hx := hflush s hq hk0 hk hsym
  rw [ht] at hx
  cases hx
  split
  · next hle => exact iff_of_false (show (0 : BitVec 4) ≠ 2 by decide) (Nat.not_lt.2 hle)
  · next hgt => exact iff_of_true rfl (Nat.lt_of_not_le hgt)

/-- Settles O34: the padding after k digits adds a fixed number below 85^(5 − k), so the padded group's number grows with theirs. -/
theorem shortGroupOverflowThresholds : Obligations.ShortGroupOverflowThresholds := by
  intro s t hq hsym ht
  have hiff := fun h0 hle => smFinalize_overflows_iff hq h0 hle hsym ht
  refine ⟨fun hk => ?_, fun hk => ?_, fun hk => ?_, fun hk => ?_⟩
  all_goals
    rw [hk] at hiff
    rw [hiff (by decide) (by decide)]
    simp only [paddedNumber, paddedDigit, groupNumber, BitVec.reduceToNat, Nat.reduceLT, if_true, if_false]
    omega

/-- Settles O35. -/
theorem lonePendingSymbolEmitsNothing : Obligations.LonePendingSymbolEmitsNothing := by
  intro s hq hk hsym
  have hone : s.holdCount.toNat = 1 := congrArg BitVec.toNat hk
  have hheld : s.heldAreSymbols := ⟨fun _ => hsym, by omega, by omega, by omega⟩
  obtain ⟨_, _, _, hflush, _⟩ := smFinalizeFlushesTheShortGroup
  rw [hflush s hq (by simp [hk]) (by omega) hheld, hone]
  have hiff : paddedNumber 1 s.hold ≤ 0xFFFFFFFF ↔ s.hold[0].toNat ≤ 0x72 := by
    simp only [paddedNumber, paddedDigit, groupNumber, Nat.reduceLT, if_true, if_false]
    omega
  simp only [hiff, Nat.sub_self, List.take_zero, List.append_nil, BitVec.ofNat_eq_ofNat, BitVec.add_zero]

end Sys2Proof.Machine

/-! PROOFS. Consequences for commands, words and events: every step completes, what a command reads and leaves alone, which errors it
reports, what it emits, and what brings a context back. -/

namespace Sys2Proof

/-- Settles O3, word by word. -/
theorem specExampleWordsDecode : Obligations.SpecExampleWordsDecode := by
  refine ⟨?_, ?_, ?_, ?_, ?_, ?_, ?_, ?_, ?_, ?_, ?_, ?_⟩
  all_goals decide

end Sys2Proof

namespace Sys2Proof.Machine

/-! ### Steps -/

/-- A command word always completes (R202). -/
theorem acceptCommand_completes (w : CommandWord) (s : State) : ∃ t, acceptCommand w s = .next t := by
  cases hw : decode w with
  | command i =>
    obtain ⟨t, ht, _⟩ := exec_port i s []
    exact ⟨t, (acceptCommand_of_decode hw s).trans ht⟩
  | illegal r => exact ⟨_, acceptCommand_of_no_command (by simp [hw]) s⟩

/-- A host event always completes (R202). -/
theorem acceptEvent_completes (e : HostEvent) (s : State) : ∃ t, acceptEvent e s = .next t := by
  cases e with
  | command w => exact acceptCommand_completes w s
  | reset => exact ⟨_, acceptEvent_reset s⟩

/-- Settles O8: an idle step holds the state, and any other is one host event. -/
theorem everyStepAnswersANextState : Obligations.EveryStepAnswersANextState := by
  intro s
  cases hp : s.port with
  | nil => exact ⟨s, step_of_idle hp⟩
  | cons e rest => rw [step_of_port hp]; exact acceptEvent_completes e _

/-- Settles O7. -/
theorem idleBlockHoldsItsState : Obligations.IdleBlockHoldsItsState := fun _ => step_of_idle

/-- Settles O6: the step is the event at the head of the port. -/
theorem stepRunsTheDecodedCommand : Obligations.StepRunsTheDecodedCommand :=
  ⟨fun _ _ _ _ hp hw => (step_of_port hp).trans (acceptCommand_of_decode hw _), fun _ _ _ => step_of_port, fun _ _ => step_of_port⟩

/-- Settles O10: both clear the context, SM_INIT with the result registers kept. -/
theorem resetAndInitDifferOnlyInTheResult : Obligations.ResetAndInitDifferOnlyInTheResult :=
  fun _ => ⟨_, rfl, ⟨rfl, rfl, rfl, rfl, rfl, rfl, rfl, rfl, rfl⟩, ⟨rfl, rfl⟩, rfl, rfl, rfl, rfl⟩

/-! ### What the stream commands read -/

/-- The registers outside the context, with the port, set to given values. -/
def State.withOthers (x : BitVec 4) (data : BitVec 40) (len : BitVec 3) (p : List HostEvent) (s : State) : State :=
  { s with cmdStatus := x, resData := data, resLen := len, port := p }

/-- Two states with one context differ in the other registers only. -/
theorem SameContext.eq_withOthers {s s' : State} (h : SameContext s s') :
    s' = s.withOthers s'.cmdStatus s'.resData s'.resLen s'.port := by
  obtain ⟨_, _, _, _, _, _, _, _, _, _, _, _, _⟩ := s'
  obtain ⟨rfl, rfl, rfl, rfl, rfl, rfl, rfl, rfl, rfl⟩ := h
  rfl

/-- A stream command runs alike whatever the registers outside the context hold: it writes cmd_status and the context, and leaves
res_data, res_len and the port (R24, R31, R242). -/
def RunsOnContext (i : Instr) (s : State) : Prop :=
  ∃ t, exec i s = .next t ∧ SameResult s t ∧ t.port = s.port ∧
    ∀ x data len p, exec i (s.withOthers x data len p) = .next (t.withOthers t.cmdStatus data len p)

theorem smFeed_runsOnContext (c : Byte) (s : State) : RunsOnContext (.smFeed c) s := by
  have hopen (hq : s.accepting) : RunsOnContext (.smFeed c) s := by
    cases hf : feedChar s.hold s.holdCount c with
    | failed e => exact ⟨_, exec_smFeed_of_failed hq hf, ⟨rfl, rfl⟩, rfl, fun _ _ _ _ => exec_smFeed_of_failed hq hf⟩
    | accepted hold k bytes =>
      exact ⟨_, exec_smFeed_of_accepted hq hf, ⟨rfl, rfl⟩, rfl, fun _ _ _ _ => exec_smFeed_of_accepted hq hf⟩
  cases hq : s.smState with
  | empty => exact hopen (.inl hq)
  | accumulating => exact hopen (.inr hq)
  | finished =>
    exact ⟨_, exec_smFeed_of_finished hq c, ⟨rfl, rfl⟩, rfl,
      fun x data len p => exec_smFeed_of_finished (s := s.withOthers x data len p) hq c⟩
  | error =>
    exact ⟨_, exec_smFeed_of_error hq c, ⟨rfl, rfl⟩, rfl,
      fun x data len p => exec_smFeed_of_error (s := s.withOthers x data len p) hq c⟩

theorem smFinalize_runsOnContext (s : State) : RunsOnContext .smFinalize s := by
  have hopen (hq : s.accepting) : RunsOnContext .smFinalize s := by
    by_cases hk : s.holdCount = 0
    · exact ⟨_, exec_smFinalize_of_none_pending hq hk, ⟨rfl, rfl⟩, rfl, fun _ _ _ _ => exec_smFinalize_of_none_pending hq hk⟩
    cases hf : flushShort s.hold s.holdCount with
    | none => exact ⟨_, exec_smFinalize_of_overflow hq hk hf, ⟨rfl, rfl⟩, rfl, fun _ _ _ _ => exec_smFinalize_of_overflow hq hk hf⟩
    | some bytes => exact ⟨_, exec_smFinalize_of_flushed hq hk hf, ⟨rfl, rfl⟩, rfl, fun _ _ _ _ => exec_smFinalize_of_flushed hq hk hf⟩
  cases hq : s.smState with
  | empty => exact hopen (.inl hq)
  | accumulating => exact hopen (.inr hq)
  | finished => exact ⟨_, exec_smFinalize_of_finished hq, ⟨rfl, rfl⟩, rfl, fun _ _ _ _ => exec_smFinalize_of_finished hq⟩
  | error => exact ⟨_, exec_smFinalize_of_error hq, ⟨rfl, rfl⟩, rfl, fun _ _ _ _ => exec_smFinalize_of_error hq⟩

theorem exec_runsOnContext {i : Instr} (hi : i.stateless = false) (s : State) : RunsOnContext i s := by
  cases i with
  | smInit => exact ⟨_, rfl, ⟨rfl, rfl⟩, rfl, fun _ _ _ _ => rfl⟩
  | smFeed c => exact smFeed_runsOnContext c s
  | smFinalize => exact smFinalize_runsOnContext s
  | alphaEnc v => cases hi
  | alphaDec c => cases hi
  | encGroup n value => cases hi
  | decGroup s0 s1 s2 s3 s4 => cases hi

/-- Settles O40. -/
theorem streamCommandsKeepTheResult : Obligations.StreamCommandsKeepTheResult := by
  intro i s hi
  obtain ⟨t, ht, hresult, hport, _⟩ := exec_runsOnContext hi s
  exact ⟨t, ht, hresult, hport⟩

/-- No command reads cmd_status (R23). -/
theorem exec_setCmdStatus (i : Instr) (s : State) (x : BitVec 4) : exec i { s with cmdStatus := x } = exec i s := by
  cases hi : i.stateless with
  | true =>
    rcases exec_stateless_cases i hi with ⟨data, len, _, hx⟩ | ⟨e, _, hx⟩
    · rw [hx, hx]; rfl
    · rw [hx, hx]; rfl
  | false =>
    obtain ⟨t, ht, ⟨hdata, hlen⟩, hport, hothers⟩ := exec_runsOnContext hi s
    have hx : exec i { s with cmdStatus := x } = _ := hothers x s.resData s.resLen s.port
    rw [hx, ht, ← hdata, ← hlen, ← hport]
    rfl

/-- Settles O41: a command does not read cmd_status, and a refused word overwrites it. -/
theorem commandStatusIsNotSticky : Obligations.CommandStatusIsNotSticky := by
  refine fun s x => ⟨fun i => exec_setCmdStatus i s x, fun w => ?_⟩
  cases hw : decode w with
  | command i => rw [acceptCommand_of_decode hw, acceptCommand_of_decode hw, exec_setCmdStatus]
  | illegal r =>
    have hnone : ∀ i, decode w ≠ .command i := by simp [hw]
    rw [acceptCommand_of_no_command hnone, acceptCommand_of_no_command hnone]
    rfl

theorem SameContext.refl (s : State) : SameContext s s := ⟨rfl, rfl, rfl, rfl, rfl, rfl, rfl, rfl, rfl⟩

theorem SameContext.symm {s t : State} (h : SameContext s t) : SameContext t s :=
  ⟨h.smState.symm, h.hold.symm, h.holdCount.symm, h.errCode.symm, h.errByte.symm, h.errPos.symm, h.inCount.symm, h.outCount.symm,
    h.outStream.symm⟩

theorem SameContext.trans {s t u : State} (h : SameContext s t) (h' : SameContext t u) : SameContext s u :=
  ⟨h'.smState.trans h.smState, h'.hold.trans h.hold, h'.holdCount.trans h.holdCount, h'.errCode.trans h.errCode,
    h'.errByte.trans h.errByte, h'.errPos.trans h.errPos, h'.inCount.trans h.inCount, h'.outCount.trans h.outCount,
    h'.outStream.trans h.outStream⟩

/-- Settles O42: a stateless command leaves each context and the same result, a stream command runs on the context alone. -/
theorem noCommandReadsTheResultRegisters : Obligations.NoCommandReadsTheResultRegisters := by
  intro i s s' hc
  cases hi : i.stateless with
  | true =>
    obtain ⟨t, t', ht, ht', hst, hstatus, hresult⟩ := statelessCommandsKeepTheContext i s s' hi
    have hst' := (exec_stateless_frame hi ht').1
    exact ⟨t, t', ht, ht', (hst.symm.trans hc).trans hst', hstatus, fun _ => hresult⟩
  | false =>
    obtain ⟨t, ht, _, _, hothers⟩ := exec_runsOnContext hi s
    rw [hc.eq_withOthers]
    exact ⟨t, _, ht, hothers _ _ _ _, ⟨rfl, rfl, rfl, rfl, rfl, rfl, rfl, rfl, rfl⟩, rfl, nofun⟩

/-! ### What brings a context back -/

/-- From FINISHED, no command but SM_INIT leads to a context that accepts input (R180). -/
theorem exec_of_finished {i : Instr} {s t : State} (hq : s.smState = .finished) (hi : i ≠ .smInit) (ht : exec i s = .next t) :
    t.smState = .finished ∨ t.smState = .error := by
  rcases exec_outcome ht with ⟨_, hc, _⟩ | ⟨hx, _⟩ | ⟨c, rfl, _⟩ | ⟨rfl, _⟩
  · exact .inl (hc.smState.trans hq)
  · exact absurd hx hi
  · rw [exec_smFeed_of_finished hq] at ht
    cases ht
    exact .inr rfl
  · rw [exec_smFinalize_of_finished hq] at ht
    cases ht
    exact .inr rfl

/-- A word that is not SM_INIT's keeps ERROR, and from FINISHED leads to FINISHED or ERROR (R180). -/
theorem acceptCommand_of_stopped {w : CommandWord} {s t : State} (hw : decode w ≠ .command .smInit)
    (ht : acceptCommand w s = .next t) :
    (s.smState = .error → t.smState = .error) ∧ (s.smState = .finished → t.smState = .finished ∨ t.smState = .error) := by
  rcases acceptCommand_outcome ht with ⟨i, hi, hx⟩ | rfl
  · have hne : i ≠ .smInit := by rintro rfl; exact hw hi
    exact ⟨fun hq => (exec_sameContext_of_error hq hne hx).smState.trans hq, fun hq => exec_of_finished hq hne hx⟩
  · exact ⟨id, .inl⟩

/-- Settles O37: any other event is a word that is not SM_INIT's. -/
theorem onlyInitAndResetReviveTheContext : Obligations.OnlyInitAndResetReviveTheContext := by
  intro s t e ht hrevived
  cases e with
  | reset => exact .inl rfl
  | command w =>
    by_contra hnot
    obtain ⟨herror, hfinished⟩ := acceptCommand_of_stopped (w := w) (fun hw => hnot (.inr ⟨w, rfl, hw⟩)) ht
    rcases hrevived with ⟨hq | hq, hacc⟩ | ⟨hq, hne⟩
    · exact hacc.ne_error (herror hq)
    · exact (hfinished hq).elim hacc.ne_finished hacc.ne_error
    · exact hne (herror hq)

/-! ### Which errors a command reports -/

/-- ALPHA_DEC reports no error but InvalidCharacter (R209). -/
theorem alphaDec_status {c : Byte} {s t : State} (ht : exec (.alphaDec c) s = .next t) : t.cmdStatus = 0 ∨ t.cmdStatus = 1 := by
  rcases execAlphaDec_cases c with ⟨_, _, hx⟩ | ⟨_, hx⟩ <;> cases (hx s).symm.trans ht
  · exact .inl rfl
  · exact .inr rfl

/-- DEC_GROUP reports no error but InvalidCharacter and Overflow (R209). -/
theorem decGroup_status {c0 c1 c2 c3 c4 : Byte} {s t : State} (ht : exec (.decGroup c0 c1 c2 c3 c4) s = .next t) :
    t.cmdStatus = 0 ∨ t.cmdStatus = 1 ∨ t.cmdStatus = 2 := by
  rcases execDecGroup_cases c0 c1 c2 c3 c4 with ⟨_, hx⟩ | hx | hx <;> cases (hx s).symm.trans ht
  · exact .inl rfl
  · exact .inr (.inl rfl)
  · exact .inr (.inr rfl)

/-- ALPHA_ENC of a digit reports no error (R209). -/
theorem alphaEnc_status {v : BitVec 7} (hv : (Instr.alphaEnc v).wellFormed = true) {s t : State}
    (ht : exec (.alphaEnc v) s = .next t) : t.cmdStatus = 0 := by
  cases (exec_alphaEnc_of_lt (Nat.lt_succ_of_le (of_decide_eq_true hv)) s).symm.trans ht
  rfl

/-- ENC_GROUP of legal operands reports no error (R209). -/
theorem encGroup_status {n : BitVec 4} {value : GroupValue} (hlegal : (Instr.encGroup n value).wellFormed = true) {s t : State}
    (ht : exec (.encGroup n value) s = .next t) : t.cmdStatus = 0 := by
  cases (exec_encGroup_of_legal ((Instr.wellFormed_iff _).1 hlegal) s).symm.trans ht
  rfl

/-- SM_FEED reports no error but the context errors (R209). -/
theorem StreamOutcome.status {byte : Byte} {n : BitVec 32} {s t : State} (ho : StreamOutcome byte n s t) :
    t.cmdStatus = 0 ∨ t.cmdStatus = 1 ∨ t.cmdStatus = 2 ∨ t.cmdStatus = 5 := by
  cases ho with
  | ignored _ => exact .inr (.inr (.inr rfl))
  | raised _ he => exact .inr he.code
  | advanced _ _ _ => exact .inl rfl

/-- SM_FINALIZE reports no error but Overflow and SequenceError (R209). -/
theorem smFinalize_status {s t : State} (ht : exec .smFinalize s = .next t) :
    t.cmdStatus = 0 ∨ t.cmdStatus = 2 ∨ t.cmdStatus = 5 := by
  rcases execSmFinalize_cases s with ⟨_, hx⟩ | ⟨_, hx⟩ | ⟨_, _, hx⟩ | ⟨_, _, _, hx⟩ | ⟨_, _, _, _, hx⟩ <;> cases hx.symm.trans ht
  · exact .inr (.inr rfl)
  · exact .inr (.inr rfl)
  · exact .inl rfl
  · exact .inr (.inl rfl)
  · exact .inl rfl

/-- Four pending symbols `u`, the largest: any further symbol and the end of input overflow. -/
def pendingLargest : State := advance 4 .accumulating #v[0x75, 0x75, 0x75, 0x75, 0x00] 4 [] State.reset

theorem inv_pendingLargest : pendingLargest.Inv :=
  inv_reset.advance 4 [] nofun ⟨nofun, nofun, by decide, nofun⟩ ⟨by decide, by decide, by decide⟩

/-- A context in ERROR, after a byte that is no input character. -/
def erroredState : State := raiseContext .invalidCharacter 0x7B State.reset

theorem inv_erroredState : erroredState.Inv := inv_reset.raiseContext (.inl rfl) 0x7B

/-- A word whose ARG is above 4 is no command (R73, R74). -/
theorem no_command_of_argField {w : CommandWord} (hw : 4 < (argField w).toNat) (i : Instr) : decode w ≠ .command i := by
  intro h
  obtain ⟨hwf, -, harg, -⟩ := decode_fields h
  rw [← harg] at hw
  cases i with
  | encGroup n value => exact absurd ((groupOperandLegal_iff n value).1 hwf).2.1 (Nat.not_le.2 hw)
  | alphaEnc _ | alphaDec _ | decGroup _ _ _ _ _ | smInit | smFeed _ | smFinalize => cases hw

/-- Every OP of a command has a refused word: the one with ARG 15 (R209). -/
theorem exists_refused_word {op : Nat} (hop : op ≤ 7) : ∃ w : CommandWord, w.toNat / 2 ^ 44 = op ∧ ∀ i, decode w ≠ .command i := by
  have hword : (packCommand (BitVec.ofNat 4 op) 15 0).toNat / 2 ^ 44 = op := by
    rw [← opField_toNat, opField_packCommand, BitVec.toNat_ofNat]
    omega
  exact ⟨_, hword, no_command_of_argField (by rw [argField_packCommand]; decide)⟩

/-- Settles O43: the row of each command, then a run for each error kind of the table. -/
theorem errorKindsPerCommand : Obligations.ErrorKindsPerCommand := by
  refine ⟨fun s t i hwf ht => ?_, ?_, ?_, ?_, ?_, fun op _ => exists_refused_word⟩
  · cases i with
    | alphaEnc v => exact alphaEnc_status hwf ht
    | alphaDec c => exact alphaDec_status ht
    | encGroup n value => exact encGroup_status hwf ht
    | decGroup c0 c1 c2 c3 c4 => exact decGroup_status ht
    | smInit => cases ht; rfl
    | smFeed c => exact (smFeed_outcome ht).status
    | smFinalize => exact smFinalize_status ht
  · exact ⟨State.reset, _, 0x20, exec_alphaDec_of_not_symbol (by decide) _, rfl⟩
  · rintro e (rfl | rfl)
    · exact ⟨State.reset, _, 0x20, 0x21, 0x21, 0x21, 0x21, exec_decGroup_of_not_symbols (by decide) _, rfl⟩
    · have hu : romInv 0x75 = some 84 := by decide
      exact ⟨State.reset, _, 0x75, 0x75, 0x75, 0x75, 0x75, exec_decGroup_of_overflow hu hu hu hu hu (by decide) _, rfl⟩
  · rintro e (rfl | rfl | rfl)
    · exact ⟨State.reset, _, 0x7B, inv_reset, rfl, rfl⟩
    · exact ⟨pendingLargest, _, 0x75, inv_pendingLargest, rfl, rfl⟩
    · exact ⟨erroredState, _, 0x21, inv_erroredState, exec_smFeed_of_error rfl _, rfl⟩
  · rintro e (rfl | rfl)
    · exact ⟨pendingLargest, _, inv_pendingLargest, rfl, rfl⟩
    · exact ⟨erroredState, _, inv_erroredState, exec_smFinalize_of_error rfl, rfl⟩

/-! ### What a command emits -/

/-- What FeedChar accepts emits nothing or four bytes (R57, R165). -/
theorem feedChar_bytes_length {hold hold' : Hold} {k k' : BitVec 3} {c : Byte} {bytes : List Byte}
    (h : feedChar hold k c = .accepted hold' k' bytes) : bytes.length = 0 ∨ bytes.length = 4 := by
  rcases feedChar_cases hold k c with ⟨_, hf⟩ | ⟨_, _, hf⟩ | ⟨_, _, hf⟩ | ⟨_, hf⟩ | ⟨_, _, hf⟩ | ⟨_, _, hf⟩ <;> rw [hf] at h
  · cases h; exact .inl rfl
  · cases h; exact .inr rfl
  · cases h
  · cases h
  · cases h; exact .inl rfl
  · rcases flushFull_cases hold _ with hx | ⟨_, _, _, _, hx⟩ <;> rw [hx] at h <;> cases h
    exact .inr rfl

/-- The output record of t is that of s with `bytes` appended and counted (R33). -/
structure Emits (s t : State) (bytes : List Byte) : Prop where
  outStream : t.outStream = s.outStream ++ bytes
  outCount : t.outCount = s.outCount + BitVec.ofNat 32 bytes.length

theorem SameContext.emits_nil {s t : State} (h : SameContext s t) : Emits s t [] :=
  ⟨h.outStream.trans (List.append_nil _).symm, h.outCount.trans (BitVec.add_zero _).symm⟩

theorem emits_nil_raiseContext (e : Status) (byte : Byte) (s : State) : Emits s (raiseContext e byte s) [] :=
  ⟨(List.append_nil _).symm, (BitVec.add_zero _).symm⟩

/-- SM_FEED emits nothing when it reports an error, else nothing or four bytes (R57). -/
theorem smFeed_emits {c : Byte} {s t : State} (ht : exec (.smFeed c) s = .next t) :
    ∃ bytes, Emits s t bytes ∧ (t.cmdStatus ≠ 0 → bytes = []) ∧ (bytes.length = 0 ∨ bytes.length = 4) := by
  rcases execSmFeed_cases c s with ⟨_, hx⟩ | ⟨_, hx⟩ | ⟨_, e, _, hx⟩ | ⟨_, hold, k, bytes, hf, hx⟩ <;> cases hx.symm.trans ht
  · exact ⟨[], (setStatus_sameContext _ _).emits_nil, fun _ => rfl, .inl rfl⟩
  · exact ⟨[], emits_nil_raiseContext _ _ _, fun _ => rfl, .inl rfl⟩
  · exact ⟨[], emits_nil_raiseContext _ _ _, fun _ => rfl, .inl rfl⟩
  · rw [feed_eq_advance]
    exact ⟨bytes, ⟨rfl, rfl⟩, fun hne => absurd rfl hne, feedChar_bytes_length hf⟩

/-- SM_FINALIZE emits nothing when it reports an error, else at most three bytes (R57). -/
theorem smFinalize_emits {s t : State} (hk : s.holdCount.toNat ≤ 4) (ht : exec .smFinalize s = .next t) :
    ∃ bytes, Emits s t bytes ∧ (t.cmdStatus ≠ 0 → bytes = []) ∧ bytes.length ≤ 3 := by
  rcases execSmFinalize_cases s with ⟨_, hx⟩ | ⟨_, hx⟩ | ⟨_, _, hx⟩ | ⟨_, _, _, hx⟩ | ⟨_, _, bytes, hf, hx⟩ <;>
    cases hx.symm.trans ht
  · exact ⟨[], (setStatus_sameContext _ _).emits_nil, fun _ => rfl, Nat.zero_le _⟩
  · exact ⟨[], emits_nil_raiseContext _ _ _, fun _ => rfl, Nat.zero_le _⟩
  · exact ⟨[], ⟨(List.append_nil _).symm, (BitVec.add_zero _).symm⟩, fun _ => rfl, Nat.zero_le _⟩
  · exact ⟨[], emits_nil_raiseContext _ _ _, fun _ => rfl, Nat.zero_le _⟩
  · rw [finalize_eq_advance]
    exact ⟨bytes, ⟨rfl, rfl⟩, fun hne => absurd rfl hne, (flushShort_length_le hf).trans (by omega)⟩

/-- Settles O44, by the outcomes of each command. -/
theorem outputPerCommand : Obligations.OutputPerCommand := by
  intro s t i hk ht hne
  rcases exec_outcome ht with ⟨_, hc, _⟩ | ⟨hx, _⟩ | ⟨c, rfl, _⟩ | ⟨rfl, _⟩
  · exact ⟨[], hc.emits_nil.outStream, hc.emits_nil.outCount, fun _ => rfl, fun _ => rfl, fun _ _ => .inl rfl, fun _ => Nat.zero_le _⟩
  · exact absurd hx hne
  · obtain ⟨bytes, ⟨hstream, hcount⟩, herror, hlen⟩ := smFeed_emits ht
    exact ⟨bytes, hstream, hcount, herror, nofun, fun _ _ => hlen, nofun⟩
  · obtain ⟨bytes, ⟨hstream, hcount⟩, herror, hlen⟩ := smFinalize_emits hk ht
    exact ⟨bytes, hstream, hcount, herror, nofun, nofun, fun _ => hlen⟩

end Sys2Proof.Machine

/-! PROOFS. Encoding whole messages: the groups of a message and their commands, the encoded text and its length. -/

namespace Sys2Proof.Machine

/-! ### The groups of a message -/

/-- A short last group is the only group of its bytes (R126). -/
theorem messageGroups_of_short {g : List Byte} (h1 : 1 ≤ g.length) (h3 : g.length ≤ 3) : messageGroups g = [g] := by
  apply messageGroups.eq_3
  · rintro b0 b1 b2 b3 rest rfl
    simp only [List.length_cons] at h3
    omega
  · rintro rfl
    cases h1

/-- A message is taken apart group by group: four bytes and the rest, nothing, or one to three last bytes (R126). -/
theorem message_induction {motive : List Byte → Prop} (message : List Byte)
    (full : ∀ b0 b1 b2 b3 rest, motive rest → motive (b0 :: b1 :: b2 :: b3 :: rest)) (nil : motive [])
    (short : ∀ g, 1 ≤ g.length → g.length ≤ 3 → motive g) : motive message := by
  induction message using messageGroups.induct with
  | case1 b0 b1 b2 b3 rest ih => exact full b0 b1 b2 b3 rest ih
  | case2 => exact nil
  | case3 g hfour hnil =>
    refine short g (List.length_pos_iff.2 hnil) ?_
    by_contra hlen
    match g, hfour, hlen with
    | _ :: _ :: _ :: _ :: _, hfour, _ => exact hfour _ _ _ _ _ rfl
    | [], _, hlen | [_], _, hlen | [_, _], _, hlen | [_, _, _], _, hlen => exact hlen (by simp)

/-- The groups of a message have one to four bytes (R126). -/
theorem length_of_mem_messageGroups (message : List Byte) :
    ∀ g ∈ messageGroups message, 1 ≤ g.length ∧ g.length ≤ 4 := by
  induction message using message_induction with
  | full b0 b1 b2 b3 rest ih =>
    rw [messageGroups, List.forall_mem_cons]
    exact ⟨⟨Nat.le_add_left 1 3, Nat.le_refl 4⟩, ih⟩
  | nil => exact fun _ hg => absurd hg List.not_mem_nil
  | short g h1 h3 =>
    rw [messageGroups_of_short h1 h3, List.forall_mem_singleton]
    exact ⟨h1, Nat.le_succ_of_le h3⟩

theorem encodeMessage_full (b0 b1 b2 b3 : Byte) (rest : List Byte) :
    encodeMessage (b0 :: b1 :: b2 :: b3 :: rest) = groupEncode 4 (packGroup [b0, b1, b2, b3]) ++ encodeMessage rest := rfl

theorem encodeMessage_short {g : List Byte} (h1 : 1 ≤ g.length) (h3 : g.length ≤ 3) :
    encodeMessage g = groupEncode g.length (packGroup g) := by
  rw [encodeMessage, messageGroups_of_short h1 h3]
  exact List.append_nil _

/-! ### Bytes and value of a group -/

/-- Byte i of a packed group (R54(a)). -/
theorem packGroup_byte (g : List Byte) {i : Nat} (hi : i < 4) :
    BitVec.ofNat 8 ((packGroup g).toNat / 2 ^ (8 * (3 - i))) = g.getD i 0 := by
  apply BitVec.eq_of_toNat_eq
  rw [packGroup_toNat, BitVec.toNat_ofNat]
  interval_cases i
  all_goals omega

/-- The bytes of a group read back from its packed value (R54). -/
theorem take_bigEndian_packGroup {g : List Byte} (h4 : g.length ≤ 4) : (bigEndian (packGroup g).toNat).take g.length = g := by
  apply List.ext_getElem (List.length_take_of_le h4)
  intro i _ hi
  rw [List.getElem_take, bigEndian_getElem, packGroup_byte g (hi.trans_le h4), List.getD_eq_getElem g 0 hi]

/-- The missing bytes of a packed group are 0 (R74). -/
theorem packGroup_padding {g : List Byte} (h4 : g.length ≤ 4) : (packGroup g).toNat % 2 ^ (8 * (4 - g.length)) = 0 := by
  have hmissing : ∀ i, g.length ≤ i → (g.getD i 0).toNat = 0 := fun i hi => by rw [List.getD_eq_default _ _ hi]; rfl
  have h0 := hmissing 0
  have h1 := hmissing 1
  have h2 := hmissing 2
  have h3 := hmissing 3
  rw [packGroup_toNat]
  generalize g.length = n at *
  interval_cases n
  all_goals omega

/-! ### The commands of ENCODE -/

section
variable {g : List Byte} (h1 : 1 ≤ g.length) (h4 : g.length ≤ 4)
include h1 h4

/-- The operands of a group's command are legal (R73, R74). -/
theorem legalOperands_groupCommand : legalOperands (groupCommand g) := by
  have hn : (BitVec.ofNat 4 g.length).toNat = g.length := (BitVec.toNat_ofNat _ _).trans (Nat.mod_eq_of_lt (by omega))
  refine (groupOperandLegal_iff _ _).1 (decide_eq_true ?_)
  rw [hn]
  exact ⟨h1, h4, packGroup_padding h4⟩

/-- The command of a group leaves the group's symbols in the result registers and the context alone (R86, R122). -/
theorem exec_groupCommand (s : State) :
    ∃ t, exec (groupCommand g) s = .next t ∧ resultSymbols t = groupEncode g.length (packGroup g) ∧ SameContext s t := by
  have hn : (BitVec.ofNat 4 g.length).toNat = g.length := (BitVec.toNat_ofNat _ _).trans (Nat.mod_eq_of_lt (by omega))
  have hx := exec_encGroup_of_legal (legalOperands_groupCommand h1 h4) s
  rw [hn] at hx
  exact ⟨_, hx, resultSymbols_setResult (groupEncode_length_le _ _) s, setResult_sameContext _ _ _⟩

end

/-- One more command whose symbols the host collects (R86). -/
theorem collectSymbols_cons {i : Instr} {s t : State} (ht : exec i s = .next t) (rest : List Instr) :
    collectSymbols (i :: rest) s = (collectSymbols rest t).map fun r => (resultSymbols t ++ r.1, r.2) := by
  simp only [collectSymbols, ht]

/-- The host that runs the commands of groups collects their symbols, group by group (R86). -/
theorem collectSymbols_groups {groups : List (List Byte)} (h : ∀ g ∈ groups, 1 ≤ g.length ∧ g.length ≤ 4) (s : State) :
    ∃ t, collectSymbols (groups.map groupCommand) s =
      some ((groups.map fun g => groupEncode g.length (packGroup g)).flatten, t) ∧ SameContext s t := by
  induction groups generalizing s with
  | nil => exact ⟨s, rfl, .refl s⟩
  | cons g groups ih =>
    obtain ⟨⟨h1, h4⟩, hrest⟩ := List.forall_mem_cons.1 h
    obtain ⟨t, ht, hsyms, hst⟩ := exec_groupCommand h1 h4 s
    obtain ⟨u, hu, htu⟩ := ih hrest t
    refine ⟨u, ?_, hst.trans htu⟩
    rw [List.map_cons, collectSymbols_cons ht, hu, hsyms]
    rfl

/-- Settles O46: a message's groups have one to four bytes. -/
theorem encodeCommandsGiveTheEncodedText : Obligations.EncodeCommandsGiveTheEncodedText :=
  fun message s => collectSymbols_groups (length_of_mem_messageGroups message) s

/-! ### The length of an encoded message -/

/-- A packed full group is 0 when its four bytes are. -/
theorem packGroup_eq_zero_iff (b0 b1 b2 b3 : Byte) : packGroup [b0, b1, b2, b3] = 0 ↔ [b0, b1, b2, b3] = [0, 0, 0, 0] := by
  constructor
  · intro hz
    have hbytes := take_bigEndian_packGroup (g := [b0, b1, b2, b3]) (Nat.le_refl 4)
    rw [hz] at hbytes
    exact hbytes.symm
  · intro hz
    rw [hz]
    rfl

/-- A full group has five symbols, four fewer if it is 0 (R123). -/
theorem length_groupEncode_full (b0 b1 b2 b3 : Byte) :
    (groupEncode 4 (packGroup [b0, b1, b2, b3])).length + (if [b0, b1, b2, b3] = [0, 0, 0, 0] then 4 else 0) = 5 := by
  by_cases hz : [b0, b1, b2, b3] = [0, 0, 0, 0]
  · rw [if_pos hz, (packGroup_eq_zero_iff b0 b1 b2 b3).2 hz, groupEncode_zero]
    rfl
  · rw [if_neg hz, groupEncode_length (fun h => hz ((packGroup_eq_zero_iff b0 b1 b2 b3).1 h.2)) (Nat.le_refl 4)]

/-- The length of an encoded message, with four added for each `z` (R127). -/
theorem length_encodeMessage (message : List Byte) :
    (encodeMessage message).length + 4 * (messageGroups message).count [0x00, 0x00, 0x00, 0x00] =
      5 * (message.length / 4) + (if 0 < message.length % 4 then message.length % 4 + 1 else 0) := by
  induction message using message_induction with
  | full b0 b1 b2 b3 rest ih =>
    have hgroup := length_groupEncode_full b0 b1 b2 b3
    rw [encodeMessage_full, messageGroups, List.count_cons, List.length_append]
    simp only [List.length_cons, beq_iff_eq]
    have hdiv : (rest.length + 1 + 1 + 1 + 1) / 4 = rest.length / 4 + 1 := by omega
    have hmod : (rest.length + 1 + 1 + 1 + 1) % 4 = rest.length % 4 := by omega
    rw [hdiv, hmod]
    split at hgroup
    · next hz => rw [if_pos hz]; omega
    · next hz => rw [if_neg hz]; omega
  | nil => rfl
  | short g h1 h3 =>
    have hz : [g].count [0x00, 0x00, 0x00, 0x00] = 0 := by
      rw [List.count_eq_zero, List.mem_singleton]
      rintro rfl
      exact absurd h3 (by decide)
    rw [encodeMessage_short h1 h3, messageGroups_of_short h1 h3, groupEncode_length (by omega) (by omega), hz]
    rw [if_pos (by omega)]
    omega

/-- Settles O47: `z` only makes the text shorter. -/
theorem encodedLength : Obligations.EncodedLength := by
  intro message
  have hlen := length_encodeMessage message
  refine ⟨hlen, ?_⟩
  split at hlen
  · omega
  · omega

/-! ### The text of a command word -/

/-- A hexadecimal digit reads back from its character (R83). -/
theorem hexValue_hexChar {d : Nat} (hd : d < 16) : hexValue (hexChar d) = some d := by
  interval_cases d
  all_goals decide

/-- The first n hexadecimal digits of a number read as the number they make, whatever stands before them (R83). -/
theorem scanDigits_hexChars (x n acc : Nat) :
    scanDigits 16 hexValue ((List.range n).map fun i => hexChar (x / 16 ^ (n - 1 - i) % 16)) acc =
      (acc * 16 ^ n + x % 16 ^ n, []) := by
  induction n generalizing acc with
  | zero => simp [scanDigits, Nat.mod_one]
  | succ n ih =>
    have htail : (fun i => hexChar (x / 16 ^ (n + 1 - 1 - i) % 16)) ∘ Nat.succ =
        fun i => hexChar (x / 16 ^ (n - 1 - i) % 16) := by
      funext i
      rw [Function.comp_apply, show n + 1 - 1 - i.succ = n - 1 - i by omega]
    have hhead := hexValue_hexChar (Nat.mod_lt (x / 16 ^ n) (show 16 > 0 by decide))
    rw [List.range_succ_eq_map, List.map_cons, List.map_map, htail]
    simp only [scanDigits, Nat.add_sub_cancel, Nat.sub_zero, hhead]
    rw [ih, Nat.mod_pow_succ, Nat.pow_succ]
    congr 1
    ring

/-- Settles O53: the twelve digits of a 48-bit number make the number. -/
theorem wordTextIsTwelveHexDigits : Obligations.WordTextIsTwelveHexDigits := by
  refine fun w => ⟨by rw [wordText, List.length_map, List.length_range], ?_⟩
  have hw : w.toNat % 16 ^ 12 = w.toNat := Nat.mod_eq_of_lt w.isLt
  rw [wordText, scanDigits_hexChars w.toNat 12 0, hw, Nat.zero_mul, Nat.zero_add]

end Sys2Proof.Machine

/-! PROOFS. Decoding whole texts: what a text decodes to as a function of the bytes and the pending symbols alone, that the commands
of DECODE compute it from the registers, and what follows for encoded messages, whitespace, chunks, lengths and the port. -/

namespace Sys2Proof.Machine

/-! ### The decode of a text, without the registers -/

/-- What the rest of a text decodes to with k symbols pending: the bytes it emits, or the first error with the byte it records
(FeedChar per byte, then FlushShort; R165, R175). -/
def decodeFrom : List Byte → Hold → BitVec 3 → Except (Status × Byte) (List Byte)
  | [], hold, k =>
    if k = 0 then .ok []
    else
      match flushShort hold k with
      | none => .error (.overflow, 0x00)
      | some bytes => .ok bytes
  | c :: rest, hold, k =>
    match feedChar hold k c with
    | .failed e => .error (e, c)
    | .accepted hold' k' bytes => (decodeFrom rest hold' k').map (bytes ++ ·)

section
variable {hold hold' : Hold} {k k' : BitVec 3} {c : Byte} {e : Status} {bytes : List Byte}

theorem decodeFrom_nil_of_none_pending (hold : Hold) : decodeFrom [] hold 0 = .ok [] := rfl

theorem decodeFrom_nil_of_overflow (hk : k ≠ 0) (hf : flushShort hold k = none) :
    decodeFrom [] hold k = .error (.overflow, 0x00) := by
  simp only [decodeFrom, if_neg hk, hf]

theorem decodeFrom_nil_of_flushed (hk : k ≠ 0) (hf : flushShort hold k = some bytes) : decodeFrom [] hold k = .ok bytes := by
  simp only [decodeFrom, if_neg hk, hf]

theorem decodeFrom_cons_of_failed (rest : List Byte) (hf : feedChar hold k c = .failed e) :
    decodeFrom (c :: rest) hold k = .error (e, c) := by
  simp only [decodeFrom, hf]

theorem decodeFrom_cons_of_accepted (rest : List Byte) (hf : feedChar hold k c = .accepted hold' k' bytes) :
    decodeFrom (c :: rest) hold k = (decodeFrom rest hold' k').map (bytes ++ ·) := by
  simp only [decodeFrom, hf]

/-- A byte that FeedChar accepts with nothing to emit. -/
theorem decodeFrom_cons_of_silent (rest : List Byte) (hf : feedChar hold k c = .accepted hold' k' []) :
    decodeFrom (c :: rest) hold k = decodeFrom rest hold' k' := by
  rw [decodeFrom_cons_of_accepted rest hf]
  cases decodeFrom rest hold' k' <;> rfl

end

/-! ### The commands of DECODE compute it -/

/-- How a stream ends, in the registers v and in the answer r of `Decode`, when the rest of its text decodes to x after the bytes
`before` were emitted (R185). -/
inductive StreamEnd (before : List Byte) (v : State) : DecodeResult → Except (Status × Byte) (List Byte) → Prop
  | finished {out : List Byte} (hstream : v.outStream = before ++ out) (herr : v.errCode = 0) (hstatus : v.cmdStatus = 0)
      (hq : v.smState = .finished) : StreamEnd before v (.bytes v.outStream) (.ok out)
  | failed {e : Status} {c : Byte} (he : e.isContextError) (hcode : v.errCode = statusCode e) (hbyte : v.errByte = c) :
      StreamEnd before v (decodeError v) (.error (e, c))

/-- Bytes emitted earlier come before those of the rest of the text. -/
theorem StreamEnd.prepend {before bytes : List Byte} {v : State} {r : DecodeResult} {x : Except (Status × Byte) (List Byte)}
    (h : StreamEnd (before ++ bytes) v r x) : StreamEnd before v r (x.map (bytes ++ ·)) := by
  cases h with
  | finished hstream herr hstatus hq => exact .finished (hstream.trans (List.append_assoc _ _ _)) herr hstatus hq
  | failed he hcode hbyte => exact .failed he hcode hbyte

/-- With an error recorded, the commands of the rest of a stream keep the context (R205(b)). -/
theorem runCommands_sameContext_of_error {program : List Instr} (hinit : ∀ i ∈ program, i ≠ .smInit) {s v : State}
    (hq : s.smState = .error) (hv : runCommands program s = .next v) : SameContext s v := by
  induction program generalizing s with
  | nil => cases hv; exact .refl _
  | cons i rest ih =>
    obtain ⟨hi, hrest⟩ := List.forall_mem_cons.1 hinit
    obtain ⟨t, ht, _⟩ := exec_port i s []
    rw [runCommands_cons ht] at hv
    have hst := exec_sameContext_of_error hq hi ht
    exact hst.trans (ih hrest (hst.smState.trans hq) hv)

/-- The commands of a stream after SM_INIT do not contain SM_INIT. -/
theorem ne_smInit_of_mem_stream {text : List Byte} : ∀ i ∈ feedsProgram text ++ [.smFinalize], i ≠ .smInit := by
  intro i hi
  rcases List.mem_append.1 hi with hfeed | hlast
  · obtain ⟨c, _, rfl⟩ := List.mem_map.1 hfeed
    exact nofun
  · rw [List.mem_singleton.1 hlast]
    exact nofun

section
variable {s t : State}

theorem runCommands_singleton {i : Instr} (ht : exec i s = .next t) : runCommands [i] s = .next t := runCommands_cons ht []

theorem decodeLoop_nil_of_ok (ht : exec .smFinalize s = .next t) (hstatus : t.cmdStatus = 0) :
    decodeLoop [] s = .bytes t.outStream := by
  simp [decodeLoop, decodeEnd, ht, hstatus]

theorem decodeLoop_nil_of_error (ht : exec .smFinalize s = .next t) (hstatus : t.cmdStatus ≠ 0) :
    decodeLoop [] s = decodeError t := by
  simp only [decodeLoop, decodeEnd, ht, if_pos hstatus]

theorem decodeLoop_cons_of_ok {c : Byte} (rest : List Byte) (ht : exec (.smFeed c) s = .next t) (hstatus : t.cmdStatus = 0) :
    decodeLoop (c :: rest) s = decodeLoop rest t := by
  simp [decodeLoop, ht, hstatus]

theorem decodeLoop_cons_of_error {c : Byte} (rest : List Byte) (ht : exec (.smFeed c) s = .next t) (hstatus : t.cmdStatus ≠ 0) :
    decodeLoop (c :: rest) s = decodeError t := by
  simp only [decodeLoop, ht, if_pos hstatus]

/-- The answer of `Decode` reads the error record. -/
theorem decodeError_of_sameContext (h : SameContext s t) : decodeError t = decodeError s := by
  simp only [decodeError, h.errCode, h.errByte, h.errPos]

/-- The end of input in an accepting context (R176). -/
theorem finalize_streamEnd (hq : s.accepting) (herr : s.errCode = 0) :
    ∃ v, exec .smFinalize s = .next v ∧ StreamEnd s.outStream v (decodeLoop [] s) (decodeFrom [] s.hold s.holdCount) := by
  by_cases hk : s.holdCount = 0
  · have hv := exec_smFinalize_of_none_pending hq hk
    refine ⟨_, hv, ?_⟩
    rw [decodeLoop_nil_of_ok hv rfl, hk, decodeFrom_nil_of_none_pending]
    exact .finished (List.append_nil _).symm herr rfl rfl
  · cases hf : flushShort s.hold s.holdCount with
    | none =>
      have hv := exec_smFinalize_of_overflow hq hk hf
      refine ⟨_, hv, ?_⟩
      rw [decodeLoop_nil_of_error hv (show (2 : BitVec 4) ≠ 0 by decide), decodeFrom_nil_of_overflow hk hf]
      exact .failed (.inr (.inl rfl)) rfl rfl
    | some bytes =>
      have hv := exec_smFinalize_of_flushed hq hk hf
      refine ⟨_, hv, ?_⟩
      rw [decodeLoop_nil_of_ok hv rfl, decodeFrom_nil_of_flushed hk hf]
      exact .finished rfl herr rfl rfl

/-- A byte that FeedChar refuses ends the stream, whatever is fed after it (R203, R204). -/
theorem failed_streamEnd {c : Byte} {e : Status} (rest : List Byte) (hq : s.accepting)
    (hf : feedChar s.hold s.holdCount c = .failed e) :
    ∃ v, runCommands (feedsProgram (c :: rest) ++ [.smFinalize]) s = .next v ∧
      StreamEnd s.outStream v (decodeLoop (c :: rest) s) (decodeFrom (c :: rest) s.hold s.holdCount) := by
  have ht := exec_smFeed_of_failed hq hf
  have he := feedChar_failed hf
  obtain ⟨v, hv⟩ := runCommands_completes (feedsProgram rest ++ [.smFinalize]) (afterContextError (statusCode e) c s)
  have hcontext := runCommands_sameContext_of_error ne_smInit_of_mem_stream rfl hv
  refine ⟨v, (runCommands_cons ht _).trans hv, ?_⟩
  rw [decodeLoop_cons_of_error rest ht he.code_ne_zero, decodeFrom_cons_of_failed rest hf, ← decodeError_of_sameContext hcontext]
  exact .failed he hcontext.errCode hcontext.errByte

end

/-- After SM_FEED has accepted a byte the context still accepts input (R166). -/
theorem acceptingState_accepts (k : BitVec 3) : acceptingState k = .empty ∨ acceptingState k = .accumulating := by
  rw [acceptingState_eq]
  split
  · exact .inl rfl
  · exact .inr rfl

/-- The commands of a text and its end, from an accepting context, leave in the registers what `Decode` answers (R166, R176, R185). -/
theorem stream_streamEnd (text : List Byte) {s : State} (hq : s.accepting) (herr : s.errCode = 0) :
    ∃ v, runCommands (feedsProgram text ++ [.smFinalize]) s = .next v ∧
      StreamEnd s.outStream v (decodeLoop text s) (decodeFrom text s.hold s.holdCount) := by
  induction text generalizing s with
  | nil =>
    obtain ⟨v, hv, hend⟩ := finalize_streamEnd hq herr
    exact ⟨v, runCommands_singleton hv, hend⟩
  | cons c rest ih =>
    cases hf : feedChar s.hold s.holdCount c with
    | failed e => exact failed_streamEnd rest hq hf
    | accepted hold k bytes =>
      have ht := exec_smFeed_of_accepted hq hf
      have hq' : (advance 1 (acceptingState k) hold k bytes s).accepting := acceptingState_accepts k
      obtain ⟨v, hv, hend⟩ := ih hq' herr
      refine ⟨v, (runCommands_cons ht _).trans hv, ?_⟩
      rw [decodeLoop_cons_of_ok rest ht rfl, decodeFrom_cons_of_accepted rest hf]
      exact hend.prepend

/-- The commands of DECODE leave in the registers what `Decode` answers, from any state (R85, R185). -/
theorem decodeProgram_streamEnd (text : List Byte) (s : State) :
    ∃ v, runCommands (decodeProgram text) s = .next v ∧ StreamEnd [] v (decodeText text s) (decodeFrom text clearedHold 0) :=
  stream_streamEnd text (s := setStatus .ok (clearContext s)) (.inl rfl) rfl

section
variable {v : State} {r : DecodeResult} {x : Except (Status × Byte) (List Byte)}

/-- The registers at the end of a stream say which of its two answers `Decode` gives (R185). -/
theorem StreamEnd.answer (h : StreamEnd [] v r x) :
    (v.errCode = 0 → r = .bytes v.outStream) ∧ (v.errCode ≠ 0 → r = .failed v.errCode v.errPos v.errByte) := by
  cases h with
  | finished _ herr _ _ => exact ⟨fun _ => rfl, fun hne => absurd herr hne⟩
  | failed he hcode _ => exact ⟨fun hz => absurd (hcode.symm.trans hz) he.code_ne_zero, fun _ => rfl⟩

/-- A text that decodes to bytes. -/
theorem StreamEnd.of_ok {out : List Byte} (h : StreamEnd [] v r (.ok out)) :
    r = .bytes out ∧ v.outStream = out ∧ v.errCode = 0 ∧ v.cmdStatus = 0 ∧ v.smState = .finished := by
  cases h with
  | finished hstream herr hstatus hq => exact ⟨congrArg DecodeResult.bytes hstream, hstream, herr, hstatus, hq⟩

/-- A text that decodes to an error. -/
theorem StreamEnd.of_error {error : Status × Byte} (h : StreamEnd [] v r (.error error)) :
    r = .failed (statusCode error.1) v.errPos error.2 := by
  cases h with
  | failed _ hcode hbyte => rw [decodeError, hcode, hbyte]

end

/-! ### Encoded messages -/

/-- The hold buffer with up to four symbols pending (R27). -/
def pendingOf (l : List Byte) : Hold := #v[l.getD 0 0, l.getD 1 0, l.getD 2 0, l.getD 3 0, 0]

/-- One more symbol takes the first free slot (R165). -/
theorem pendingOf_concat {l : List Byte} (hl : l.length < 4) (c : Byte) :
    (pendingOf l).setIfInBounds l.length c = pendingOf (l ++ [c]) := by
  match l, hl with
  | [], _ | [_], _ | [_, _], _ | [_, _, _], _ => rfl

/-- Up to four symbols are held (R170). -/
theorem decodeFrom_symbols {l : List Byte} (hsym : ∀ c ∈ l, isSymbol c) (hl : l.length ≤ 4) (rest : List Byte) :
    decodeFrom (l ++ rest) clearedHold 0 = decodeFrom rest (pendingOf l) (BitVec.ofNat 3 l.length) := by
  induction l using List.reverseRecOn generalizing rest with
  | nil => rfl
  | append_singleton l c ih =>
    rw [List.length_append, List.length_singleton] at hl ⊢
    obtain ⟨hpending, hc⟩ := List.forall_mem_append.1 hsym
    have hk : (BitVec.ofNat 3 l.length).toNat = l.length := (BitVec.toNat_ofNat _ _).trans (Nat.mod_eq_of_lt (by omega))
    have hf := feedChar_of_symbol_of_lt (pendingOf l) (BitVec.ofNat 3 l.length) (hc c (List.mem_singleton_self c)) (by omega)
    rw [hk, pendingOf_concat (by omega)] at hf
    rw [List.append_assoc, ih hpending (by omega), List.singleton_append, decodeFrom_cons_of_silent rest hf, BitVec.ofNat_add]
    rfl

/-- The fifth of five digits whose number is in the range flushes the number's bytes (R165). -/
theorem feedChar_fifth_digit {d0 d1 d2 d3 d4 : Digit} (hv : groupNumber d0 d1 d2 d3 d4 ≤ 0xFFFFFFFF) :
    feedChar (pendingOf [romFwd d0, romFwd d1, romFwd d2, romFwd d3]) 4 (romFwd d4) =
      .accepted clearedHold 0 (bigEndian (groupNumber d0 d1 d2 d3 d4)) := by
  have hf := feedChar_fifth_symbol (pendingOf [romFwd d0, romFwd d1, romFwd d2, romFwd d3]) (romFwd_isSymbol d4)
    (romFwd_isSymbol d0) (romFwd_isSymbol d1) (romFwd_isSymbol d2) (romFwd_isSymbol d3)
  have hnum : symbolsNumber (romFwd d0) (romFwd d1) (romFwd d2) (romFwd d3) (romFwd d4) = groupNumber d0 d1 d2 d3 d4 := by
    simp only [symbolsNumber, romFwd_toNat, Nat.add_sub_cancel]
  rw [← hnum] at hv ⊢
  exact hf.trans (if_pos hv)

/-- Five symbols of digits whose number is in the range decode to the number's bytes (R170). -/
theorem decodeFrom_five {d0 d1 d2 d3 d4 : Digit} (hv : groupNumber d0 d1 d2 d3 d4 ≤ 0xFFFFFFFF) (rest : List Byte) :
    decodeFrom ([romFwd d0, romFwd d1, romFwd d2, romFwd d3, romFwd d4] ++ rest) clearedHold 0 =
      (decodeFrom rest clearedHold 0).map (bigEndian (groupNumber d0 d1 d2 d3 d4) ++ ·) := by
  have hsym : ∀ c ∈ [d0, d1, d2, d3].map romFwd, isSymbol c := List.forall_mem_map.2 fun d _ => romFwd_isSymbol d
  rw [← decodeFrom_cons_of_accepted rest (feedChar_fifth_digit hv)]
  exact decodeFrom_symbols hsym (Nat.le_refl 4) (romFwd d4 :: rest)

/-- The symbols of a full group decode to its bytes, and the rest of the text at a group boundary (R187). -/
theorem decodeFrom_full_group (value : GroupValue) (rest : List Byte) :
    decodeFrom (groupEncode 4 value ++ rest) clearedHold 0 =
      (decodeFrom rest clearedHold 0).map (bigEndian value.toNat ++ ·) := by
  by_cases hz : value = 0
  · rw [hz, groupEncode_zero]
    exact decodeFrom_cons_of_accepted rest (feedChar_zero_at_boundary clearedHold)
  · obtain ⟨d0, d1, d2, d3, d4, hsyms, hnum⟩ := groupEncode_full hz
    rw [hsyms, decodeFrom_five (by omega), hnum]

/-- The symbols of a short group decode to its bytes at the end of the text (R179). -/
theorem decodeFrom_short_group {g : List Byte} (h1 : 1 ≤ g.length) (h3 : g.length ≤ 3) :
    decodeFrom (groupEncode g.length (packGroup g)) clearedHold 0 = .ok g := by
  have hz : ¬(g.length = 4 ∧ packGroup g = 0) := fun h => by omega
  have hlen := groupEncode_length hz (by omega)
  have hpending := decodeFrom_symbols (fun c hc => isSymbol_of_mem_groupEncode hz hc) (by omega) []
  have hflush : flushShort (pendingOf (groupEncode g.length (packGroup g))) (BitVec.ofNat 3 (g.length + 1)) = _ :=
    shortGroupRoundTrip g.length (packGroup g) h1 h3 (packGroup_padding (by omega))
  have hk : BitVec.ofNat 3 (g.length + 1) ≠ 0 := by
    rw [Ne, ← BitVec.toNat_inj, shortCount_toNat h3]
    exact Nat.succ_ne_zero _
  rw [List.append_nil, hlen, decodeFrom_nil_of_flushed hk hflush, take_bigEndian_packGroup (by omega)] at hpending
  exact hpending

theorem decodeFrom_encodeMessage (message : List Byte) : decodeFrom (encodeMessage message) clearedHold 0 = .ok message := by
  induction message using message_induction with
  | full b0 b1 b2 b3 rest ih =>
    have hbytes : bigEndian (packGroup [b0, b1, b2, b3]).toNat = [b0, b1, b2, b3] :=
      take_bigEndian_packGroup (g := [b0, b1, b2, b3]) (Nat.le_refl 4)
    rw [encodeMessage_full, decodeFrom_full_group, ih, hbytes]
    rfl
  | nil => rfl
  | short g h1 h3 => rw [encodeMessage_short h1 h3, decodeFrom_short_group h1 h3]

/-- Settles O48: the symbols of each group decode to its bytes. -/
theorem decodeOfEncodedMessageIsTheMessage : Obligations.DecodeOfEncodedMessageIsTheMessage := by
  intro message s
  obtain ⟨v, _, hend⟩ := decodeProgram_streamEnd (encodeMessage message) s
  rw [decodeFrom_encodeMessage] at hend
  exact hend.of_ok.1

/-! ### Whitespace -/

/-- Without its whitespace a text decodes as with it (R167). -/
theorem decodeFrom_filter (text : List Byte) (hold : Hold) (k : BitVec 3) :
    decodeFrom (text.filter fun c => decide (¬isWhitespace c)) hold k = decodeFrom text hold k := by
  induction text generalizing hold k with
  | nil => rfl
  | cons c rest ih =>
    by_cases hc : isWhitespace c
    · have hdrop := List.filter_cons_of_neg (p := fun c => decide (¬isWhitespace c)) (l := rest)
        fun h => absurd hc (of_decide_eq_true h)
      rw [hdrop, ih, decodeFrom_cons_of_silent rest (feedChar_of_whitespace hold k hc)]
    · have hkeep := List.filter_cons_of_pos (p := fun c => decide (¬isWhitespace c)) (l := rest) (decide_eq_true hc)
      rw [hkeep]
      cases hf : feedChar hold k c with
      | failed e => rw [decodeFrom_cons_of_failed _ hf, decodeFrom_cons_of_failed _ hf]
      | accepted hold' k' bytes => rw [decodeFrom_cons_of_accepted _ hf, decodeFrom_cons_of_accepted _ hf, ih]

/-- Settles O49: both texts decode as their common text without whitespace. -/
theorem whitespaceDoesNotChangeTheResult : Obligations.WhitespaceDoesNotChangeTheResult := by
  intro t t' s hfilter
  have hsame : decodeFrom t clearedHold 0 = decodeFrom t' clearedHold 0 := by
    rw [← decodeFrom_filter t, hfilter, decodeFrom_filter]
  obtain ⟨v, _, hend⟩ := decodeProgram_streamEnd t s
  obtain ⟨v', _, hend'⟩ := decodeProgram_streamEnd t' s
  rw [← hsame] at hend'
  cases hx : decodeFrom t clearedHold 0 with
  | ok out =>
    rw [hx] at hend hend'
    exact .inl ⟨out, hend.of_ok.1, hend'.of_ok.1⟩
  | error x =>
    rw [hx] at hend hend'
    exact .inr ⟨_, _, _, _, hend.of_error, hend'.of_error⟩

/-! ### Chunks -/

/-- SM_INIT, a text in chunks, SM_FINALIZE: the commands of DECODE for the whole text (R186). -/
theorem chunks_streamEnd (chunks : List (List Byte)) (s : State) :
    ∃ t u v, exec .smInit s = .next t ∧ feedChunks chunks t = .next u ∧ exec .smFinalize u = .next v ∧
      StreamEnd [] v (decodeText chunks.flatten s) (decodeFrom chunks.flatten clearedHold 0) := by
  obtain ⟨v, hv, hend⟩ := decodeProgram_streamEnd chunks.flatten s
  obtain ⟨t, ht, _⟩ := exec_port .smInit s []
  obtain ⟨u, hu⟩ := runCommands_completes (feedsProgram chunks.flatten) t
  obtain ⟨w, hw, _⟩ := exec_port .smFinalize u []
  rw [decodeProgram, runCommands_cons ht, runCommands_append hu, runCommands_singleton hw] at hv
  cases hv
  exact ⟨t, u, _, ht, (feedChunks_eq chunks t).trans hu, hw, hend⟩

/-- Settles O50: the registers after the chunks are those after DECODE. -/
theorem chunkedFeedingIsWholeFeeding : Obligations.ChunkedFeedingIsWholeFeeding := by
  refine ⟨fun chunks s => ?_, fun message chunks s hflatten => ?_⟩
  · obtain ⟨t, u, v, ht, hu, hv, hend⟩ := chunks_streamEnd chunks s
    exact ⟨t, u, v, ht, hu, hv, hend.answer⟩
  · obtain ⟨t, u, v, ht, hu, hv, hend⟩ := chunks_streamEnd chunks s
    rw [hflatten, decodeFrom_encodeMessage] at hend
    exact ⟨t, u, v, ht, hu, hv, hend.of_ok.2⟩

/-! ### Lengths -/

/-- What FeedChar accepts counts the symbols it takes in and out of the hold buffer: `z` and a flush emit four bytes for them
(R165). -/
theorem feedChar_counts {hold hold' : Hold} {k k' : BitVec 3} {c : Byte} {bytes : List Byte} (hk : k.toNat ≤ 4)
    (h : feedChar hold k c = .accepted hold' k' bytes) :
    (bytes.length = 0 ∧ k'.toNat ≤ k.toNat + 1 ∧ k'.toNat ≤ 4) ∨ (c = 0x7A ∧ bytes.length = 4 ∧ k'.toNat = 0) ∨
      (k.toNat = 4 ∧ bytes.length = 4 ∧ k'.toNat = 0) := by
  rcases feedChar_cases hold k c with ⟨_, hf⟩ | ⟨hz, _, hf⟩ | ⟨_, _, hf⟩ | ⟨_, hf⟩ | ⟨_, hlt, hf⟩ | ⟨_, hge, hf⟩ <;> rw [hf] at h
  · cases h; exact .inl ⟨rfl, by omega, hk⟩
  · cases h; exact .inr (.inl ⟨hz, rfl, rfl⟩)
  · cases h
  · cases h
  · cases h
    have hk' : (k + 1).toNat = k.toNat + 1 := by bv_omega
    exact .inl ⟨rfl, by omega, by omega⟩
  · rcases flushFull_cases hold _ with hx | ⟨_, _, _, _, hx⟩ <;> rw [hx] at h <;> cases h
    exact .inr (.inr ⟨Nat.le_antisymm hk hge, rfl, rfl⟩)

/-- The end of input emits fewer bytes than symbols are pending (R175). -/
theorem length_of_decodeFrom_nil {hold : Hold} {k : BitVec 3} {out : List Byte} (h : decodeFrom [] hold k = .ok out) :
    out.length ≤ k.toNat - 1 := by
  by_cases hk : k = 0
  · subst hk
    cases h
    exact Nat.zero_le _
  · cases hf : flushShort hold k with
    | none => rw [decodeFrom_nil_of_overflow hk hf] at h; cases h
    | some bytes =>
      rw [decodeFrom_nil_of_flushed hk hf] at h
      cases h
      exact flushShort_length_le hf

/-- A text that decodes past its first byte: FeedChar accepts the byte, and the rest decodes. -/
theorem decodeFrom_cons_eq_ok {hold : Hold} {k : BitVec 3} {c : Byte} {rest out : List Byte}
    (h : decodeFrom (c :: rest) hold k = .ok out) :
    ∃ hold' k' bytes out', feedChar hold k c = .accepted hold' k' bytes ∧ decodeFrom rest hold' k' = .ok out' ∧
      out = bytes ++ out' := by
  cases hf : feedChar hold k c with
  | failed e => rw [decodeFrom_cons_of_failed rest hf] at h; cases h
  | accepted hold' k' bytes =>
    rw [decodeFrom_cons_of_accepted rest hf] at h
    cases hrest : decodeFrom rest hold' k' with
    | error x => rw [hrest] at h; cases h
    | ok out' =>
      rw [hrest] at h
      cases h
      exact ⟨hold', k', bytes, out', rfl, hrest, rfl⟩

/-- Each byte of a text yields at most four bytes, and each pending symbol at most one (R189). -/
theorem length_of_decodeFrom {text out : List Byte} {hold : Hold} {k : BitVec 3} (hk : k.toNat ≤ 4)
    (h : decodeFrom text hold k = .ok out) : out.length ≤ 4 * text.length + k.toNat := by
  induction text generalizing hold k out with
  | nil =>
    have := length_of_decodeFrom_nil h
    omega
  | cons c rest ih =>
    obtain ⟨hold', k', bytes, out', hf, hrest, rfl⟩ := decodeFrom_cons_eq_ok h
    rw [List.length_append, List.length_cons]
    have hcounts := feedChar_counts hk hf
    have := ih (by omega) hrest
    omega

/-- Without `z`, five symbols yield four bytes, and the end of input at most three (R189). -/
theorem length_of_decodeFrom_of_no_shorthand {text out : List Byte} {hold : Hold} {k : BitVec 3} (hk : k.toNat ≤ 4)
    (hz : 0x7A ∉ text) (h : decodeFrom text hold k = .ok out) : out.length ≤ 4 * ((text.length + k.toNat) / 5) + 3 := by
  induction text generalizing hold k out with
  | nil =>
    have := length_of_decodeFrom_nil h
    omega
  | cons c rest ih =>
    obtain ⟨hold', k', bytes, out', hf, hrest, rfl⟩ := decodeFrom_cons_eq_ok h
    obtain ⟨hc, hzrest⟩ := List.ne_and_not_mem_of_not_mem_cons hz
    rw [List.length_append, List.length_cons]
    have hcounts := (feedChar_counts hk hf).imp_right fun h => h.resolve_left fun hzero => hc hzero.1.symm
    have := ih (by omega) hzrest hrest
    omega

/-- Settles O51: a text decodes from an empty hold buffer. -/
theorem decodedLengthIsBounded : Obligations.DecodedLengthIsBounded := by
  intro text out s hout
  obtain ⟨v, _, hend⟩ := decodeProgram_streamEnd text s
  have hok : decodeFrom text clearedHold 0 = .ok out := by
    cases hx : decodeFrom text clearedHold 0 with
    | ok out' =>
      rw [hx] at hend
      cases hout.symm.trans hend.of_ok.1
      rfl
    | error x =>
      rw [hx] at hend
      cases hout.symm.trans hend.of_error
  exact ⟨length_of_decodeFrom (k := 0) (Nat.zero_le 4) hok,
    fun hz => length_of_decodeFrom_of_no_shorthand (k := 0) (Nat.zero_le 4) hz hok⟩

/-! ### The command port -/

/-- Issued behind an empty port, one more command is taken by the next step (R60, R81). -/
theorem step_issueAll {i : Instr} {rest : List Instr} {s t : State} (hi : i.wellFormed = true) (hp : s.port = [])
    (ht : exec i s = .next t) : step (issueAll (i :: rest) s) = .next (issueAll rest t) ∧ t.port = [] := by
  obtain ⟨t', ht', hport, hrun⟩ := exec_port i s (rest.map fun j => .command (encode j))
  cases ht.symm.trans ht'
  have hnext : (issueAll (i :: rest) s).port = .command (encode i) :: rest.map fun j => .command (encode j) := by
    rw [issueAll, hp]
    rfl
  have hdecode := acceptCommand_of_decode (decodeOfEncodeIsTheInstruction i hi)
  refine ⟨(step_of_port hnext).trans ((hdecode _).trans (hrun.trans ?_)), hport.trans hp⟩
  rw [issueAll, hport.trans hp, List.nil_append]

/-- The words of well-formed commands on an empty port, one step each, run the commands and empty the port (R241). -/
theorem run_issueAll {program : List Instr} (hwf : ∀ i ∈ program, i.wellFormed = true) {s v : State} (hp : s.port = [])
    (hv : runCommands program s = .next v) :
    Host.Core.run Sys2Proof.core program.length (issueAll program s) = .next v ∧ v.port = [] := by
  induction program generalizing s with
  | nil =>
    cases hv
    have hidle : issueAll [] v = v := by rw [issueAll, List.map_nil, List.append_nil]
    rw [hidle]
    exact ⟨rfl, hp⟩
  | cons i rest ih =>
    obtain ⟨hi, hrest⟩ := List.forall_mem_cons.1 hwf
    obtain ⟨t, ht, _⟩ := exec_port i s []
    rw [runCommands_cons ht] at hv
    obtain ⟨hstep, htp⟩ := step_issueAll (rest := rest) hi hp ht
    rw [List.length_cons, core_run_succ _ hstep]
    exact ih hrest htp hv

/-- The commands of DECODE are well-formed, SM_INIT, one per byte, and SM_FINALIZE (R85). -/
theorem decodeProgram_wellFormed (text : List Byte) : ∀ i ∈ decodeProgram text, i.wellFormed = true := by
  refine List.forall_mem_cons.2 ⟨rfl, List.forall_mem_append.2 ⟨?_, ?_⟩⟩
  · exact List.forall_mem_map.2 fun _ _ => rfl
  · exact List.forall_mem_singleton.2 rfl

theorem length_decodeProgram (text : List Byte) : (decodeProgram text).length = text.length + 2 := by
  rw [decodeProgram, feedsProgram, List.length_cons, List.length_append, List.length_map, List.length_singleton]

/-- Settles O52: the steps run the commands of DECODE. -/
theorem decodeRunsOnTheCommandPort : Obligations.DecodeRunsOnTheCommandPort := by
  intro text s hp
  obtain ⟨v, hv, hend⟩ := decodeProgram_streamEnd text s
  obtain ⟨hrun, hport⟩ := run_issueAll (decodeProgram_wellFormed text) hp hv
  rw [length_decodeProgram] at hrun
  exact ⟨v, hrun, hport, hend.answer⟩

end Sys2Proof.Machine
